-- ==== Sys2Proof/Word.lean ====
section
/-! DEFINITION. The two word types of the core (00_scope.md R6): 8-bit data and 16-bit addresses. Their `+` is the spec's `+_8` and `+_16`,
addition modulo 256 and modulo 65,536 (R9, R10). -/

namespace Sys2Proof

/-- A byte: a register, a memory cell, an operand (00_scope.md R6). Bits are numbered 7 down to 0 (R8). -/
abbrev Byte := BitVec 8

/-- A 16-bit address, also the program counter's type (00_scope.md R6, 10_state.md R24). -/
abbrev Addr := BitVec 16

end Sys2Proof
end

