-- ==== Sys2Proof/Syntax.lean ====
section
/-! DEFINITION. The instructions: one constructor for each of the 29 opcode forms of 30_encoding.md R90, carrying the operand field of R86. Every value of
every field is legal (R95). -/

namespace Sys2Proof

/-- One opcode form with its operand: `imm` is imm8, `zp` is zp8, `addr` is abs16, `rel` is rel8 (30_encoding.md R86). -/
inductive Instr where
  | adcImm (imm : Byte)     -- ADC #imm      (41_adc.md R150)
  | adcZp (zp : Byte)       -- ADC zp        (R151)
  | adcZpX (zp : Byte)      -- ADC zp,X      (R152)
  | adcAbs (addr : Addr)    -- ADC addr      (R153)
  | adcAbsX (addr : Addr)   -- ADC addr,X    (R154)
  | adcAbsY (addr : Addr)   -- ADC addr,Y    (R155)
  | adcIndX (zp : Byte)     -- ADC (zp,X)    (R156)
  | adcIndY (zp : Byte)     -- ADC (zp),Y    (R157)
  | andImm (imm : Byte)     -- AND #imm      (42_and_asl_bit.md R171)
  | andZp (zp : Byte)       -- AND zp        (R172)
  | andZpX (zp : Byte)      -- AND zp,X      (R173)
  | andAbs (addr : Addr)    -- AND addr      (R174)
  | andAbsX (addr : Addr)   -- AND addr,X    (R175)
  | andAbsY (addr : Addr)   -- AND addr,Y    (R176)
  | andIndX (zp : Byte)     -- AND (zp,X)    (R177)
  | andIndY (zp : Byte)     -- AND (zp),Y    (R178)
  | aslAcc                  -- ASL A         (R183)
  | aslZp (zp : Byte)       -- ASL zp        (R184)
  | aslZpX (zp : Byte)      -- ASL zp,X      (R185)
  | aslAbs (addr : Addr)    -- ASL addr      (R186)
  | aslAbsX (addr : Addr)   -- ASL addr,X    (R187)
  | bitZp (zp : Byte)       -- BIT zp        (R190)
  | bitAbs (addr : Addr)    -- BIT addr      (R191)
  | bpl (rel : Byte)        -- BPL           (43_branches.md R210)
  | bmi (rel : Byte)        -- BMI           (R211)
  | bcc (rel : Byte)        -- BCC           (R212)
  | bcs (rel : Byte)        -- BCS           (R213)
  | bne (rel : Byte)        -- BNE           (R214)
  | beq (rel : Byte)        -- BEQ           (R215)
  deriving DecidableEq, Repr

end Sys2Proof
end

