-- ==== Sys2Proof/WellFormed.lean ====
section
/-! DEFINITION. The spec's (mnemonic, addressing mode) pairs and which of them exist (30_encoding.md R88, R89). A pair that does not exist is ill-formed
and maps to the unsupported-instruction condition (60_exceptions.md R262); every term of Instr is well-formed, since no operand value is reserved (R95). -/

namespace Sys2Proof

/-- The ten mnemonics (00_scope.md R2, 30_encoding.md R96). -/
inductive Mnemonic where
  | adc | and | asl | bit | bpl | bmi | bcc | bcs | bne | beq
  deriving DecidableEq, Repr

/-- The ten addressing modes (40_addressing.md R112 to R121); the table is closed (R127). -/
inductive Mode where
  | accumulator
  | immediate
  | zeroPage
  | zeroPageX
  | absolute
  | absoluteX
  | absoluteY
  | zeroPageIndirectX   -- (Zero Page,X)
  | zeroPageIndirectY   -- (Zero Page),Y
  | relative
  deriving DecidableEq, Repr

/-- The mnemonic of each opcode form (30_encoding.md R90). -/
def Instr.mnemonic : Instr → Mnemonic
  | .adcImm _ => .adc
  | .adcZp _ => .adc
  | .adcZpX _ => .adc
  | .adcAbs _ => .adc
  | .adcAbsX _ => .adc
  | .adcAbsY _ => .adc
  | .adcIndX _ => .adc
  | .adcIndY _ => .adc
  | .andImm _ => .and
  | .andZp _ => .and
  | .andZpX _ => .and
  | .andAbs _ => .and
  | .andAbsX _ => .and
  | .andAbsY _ => .and
  | .andIndX _ => .and
  | .andIndY _ => .and
  | .aslAcc => .asl
  | .aslZp _ => .asl
  | .aslZpX _ => .asl
  | .aslAbs _ => .asl
  | .aslAbsX _ => .asl
  | .bitZp _ => .bit
  | .bitAbs _ => .bit
  | .bpl _ => .bpl
  | .bmi _ => .bmi
  | .bcc _ => .bcc
  | .bcs _ => .bcs
  | .bne _ => .bne
  | .beq _ => .beq

/-- The addressing mode of each opcode form (30_encoding.md R90). -/
def Instr.mode : Instr → Mode
  | .adcImm _ => .immediate
  | .adcZp _ => .zeroPage
  | .adcZpX _ => .zeroPageX
  | .adcAbs _ => .absolute
  | .adcAbsX _ => .absoluteX
  | .adcAbsY _ => .absoluteY
  | .adcIndX _ => .zeroPageIndirectX
  | .adcIndY _ => .zeroPageIndirectY
  | .andImm _ => .immediate
  | .andZp _ => .zeroPage
  | .andZpX _ => .zeroPageX
  | .andAbs _ => .absolute
  | .andAbsX _ => .absoluteX
  | .andAbsY _ => .absoluteY
  | .andIndX _ => .zeroPageIndirectX
  | .andIndY _ => .zeroPageIndirectY
  | .aslAcc => .accumulator
  | .aslZp _ => .zeroPage
  | .aslZpX _ => .zeroPageX
  | .aslAbs _ => .absolute
  | .aslAbsX _ => .absoluteX
  | .bitZp _ => .zeroPage
  | .bitAbs _ => .absolute
  | .bpl _ => .relative
  | .bmi _ => .relative
  | .bcc _ => .relative
  | .bcs _ => .relative
  | .bne _ => .relative
  | .beq _ => .relative

/-- The modes each mnemonic has (30_encoding.md R89). UNVERIFIED (log 9, unsafe): the spec's decision D14 for ADC, AND and BIT. -/
def Mnemonic.modes : Mnemonic → List Mode
  | .adc => [.immediate, .zeroPage, .zeroPageX, .absolute, .absoluteX, .absoluteY, .zeroPageIndirectX, .zeroPageIndirectY]
  | .and => [.immediate, .zeroPage, .zeroPageX, .absolute, .absoluteX, .absoluteY, .zeroPageIndirectX, .zeroPageIndirectY]
  | .asl => [.accumulator, .zeroPage, .zeroPageX, .absolute, .absoluteX]
  | .bit => [.zeroPage, .absolute]
  | .bpl => [.relative]
  | .bmi => [.relative]
  | .bcc => [.relative]
  | .bcs => [.relative]
  | .bne => [.relative]
  | .beq => [.relative]

/-- A (mnemonic, mode) pair the core has: "The table holds only valid pairs" (30_encoding.md R88). -/
def validPair (mn : Mnemonic) (md : Mode) : Bool := mn.modes.contains md

/-- The one check on an instruction; operand fields need none (30_encoding.md R95). -/
def Instr.wellFormed (i : Instr) : Bool := validPair i.mnemonic i.mode

end Sys2Proof
end

