-- ==== Sys2Proof/Decode.lean ====
section
/-! DEFINITION. From bytes to instructions and back: the byte-order helpers, instruction lengths (30_encoding.md R81), the dispatch table (R87, R90), the
decoder, total on any bytes and rejecting by name (R85, R93), and the encoder, written a second time from the encoding table.
UNVERIFIED (log 9, unsafe): the 29 opcode bytes are the spec's decision D12. -/

namespace Sys2Proof

/-- `lo(w)` (00_scope.md R9). -/
def loByte (w : Addr) : Byte := w.extractLsb' 0 8

/-- `hi(w)` (00_scope.md R9). -/
def hiByte (w : Addr) : Byte := w.extractLsb' 8 8

/-- `{h, l}`, the 16-bit value h * 256 + l (00_scope.md R9). -/
def pair (h l : Byte) : Addr := h ++ l

/-- "Bytes consumed" after the opcode byte (30_encoding.md R81). -/
def Mode.operandBytes : Mode → Nat
  | .accumulator => 0
  | .immediate => 1
  | .zeroPage => 1
  | .zeroPageX => 1
  | .absolute => 2
  | .absoluteX => 2
  | .absoluteY => 2
  | .zeroPageIndirectX => 1
  | .zeroPageIndirectY => 1
  | .relative => 1

/-- `len` (30_encoding.md R81). -/
def Mode.length (md : Mode) : Nat := 1 + md.operandBytes

/-- The instruction's length in bytes; only the mode decides it (30_encoding.md R80, R85). -/
def Instr.length (i : Instr) : Nat := i.mode.length

/-- One row of the dispatch table: the row matches on all eight bits of the opcode byte (30_encoding.md R90). -/
structure OpcodeRow where
  opcode : Byte
  mnemonic : Mnemonic
  mode : Mode
  deriving DecidableEq, Repr

/-- The eight ADC rows (30_encoding.md R90). -/
def adcRows : List OpcodeRow :=
  [⟨0x69#8, .adc, .immediate⟩, ⟨0x65#8, .adc, .zeroPage⟩, ⟨0x75#8, .adc, .zeroPageX⟩, ⟨0x6D#8, .adc, .absolute⟩,
   ⟨0x7D#8, .adc, .absoluteX⟩, ⟨0x79#8, .adc, .absoluteY⟩, ⟨0x61#8, .adc, .zeroPageIndirectX⟩, ⟨0x71#8, .adc, .zeroPageIndirectY⟩]

/-- The eight AND rows (30_encoding.md R90). -/
def andRows : List OpcodeRow :=
  [⟨0x29#8, .and, .immediate⟩, ⟨0x25#8, .and, .zeroPage⟩, ⟨0x35#8, .and, .zeroPageX⟩, ⟨0x2D#8, .and, .absolute⟩,
   ⟨0x3D#8, .and, .absoluteX⟩, ⟨0x39#8, .and, .absoluteY⟩, ⟨0x21#8, .and, .zeroPageIndirectX⟩, ⟨0x31#8, .and, .zeroPageIndirectY⟩]

/-- The five ASL rows and the two BIT rows (30_encoding.md R90). -/
def aslBitRows : List OpcodeRow :=
  [⟨0x0A#8, .asl, .accumulator⟩, ⟨0x06#8, .asl, .zeroPage⟩, ⟨0x16#8, .asl, .zeroPageX⟩, ⟨0x0E#8, .asl, .absolute⟩,
   ⟨0x1E#8, .asl, .absoluteX⟩, ⟨0x24#8, .bit, .zeroPage⟩, ⟨0x2C#8, .bit, .absolute⟩]

/-- The six branch rows (30_encoding.md R90). -/
def branchRows : List OpcodeRow :=
  [⟨0x10#8, .bpl, .relative⟩, ⟨0x30#8, .bmi, .relative⟩, ⟨0x90#8, .bcc, .relative⟩, ⟨0xB0#8, .bcs, .relative⟩,
   ⟨0xD0#8, .bne, .relative⟩, ⟨0xF0#8, .beq, .relative⟩]

/-- The complete dispatch table, a constant of the hardware (30_encoding.md R87, R90). -/
def opcodeTable : List OpcodeRow := adcRows ++ andRows ++ aslBitRows ++ branchRows

/-- `Dispatch : byte -> (mnemonic, mode) or none` (30_encoding.md R87). -/
def dispatch (op : Byte) : Option (Mnemonic × Mode) :=
  (opcodeTable.find? (fun row => row.opcode == op)).map (fun row => (row.mnemonic, row.mode))

/-- The instruction of a pair with operand bytes `b1`, `b2`; a form takes only the bytes its format has (30_encoding.md R82 to R84, R86). A pair the table does
not hold has no instruction (R88, 60_exceptions.md R262). -/
def assemble : Mnemonic → Mode → Byte → Byte → Option Instr
  | .adc, .immediate, b1, _ => some (.adcImm b1)
  | .adc, .zeroPage, b1, _ => some (.adcZp b1)
  | .adc, .zeroPageX, b1, _ => some (.adcZpX b1)
  | .adc, .absolute, b1, b2 => some (.adcAbs (pair b2 b1))
  | .adc, .absoluteX, b1, b2 => some (.adcAbsX (pair b2 b1))
  | .adc, .absoluteY, b1, b2 => some (.adcAbsY (pair b2 b1))
  | .adc, .zeroPageIndirectX, b1, _ => some (.adcIndX b1)
  | .adc, .zeroPageIndirectY, b1, _ => some (.adcIndY b1)
  | .and, .immediate, b1, _ => some (.andImm b1)
  | .and, .zeroPage, b1, _ => some (.andZp b1)
  | .and, .zeroPageX, b1, _ => some (.andZpX b1)
  | .and, .absolute, b1, b2 => some (.andAbs (pair b2 b1))
  | .and, .absoluteX, b1, b2 => some (.andAbsX (pair b2 b1))
  | .and, .absoluteY, b1, b2 => some (.andAbsY (pair b2 b1))
  | .and, .zeroPageIndirectX, b1, _ => some (.andIndX b1)
  | .and, .zeroPageIndirectY, b1, _ => some (.andIndY b1)
  | .asl, .accumulator, _, _ => some .aslAcc
  | .asl, .zeroPage, b1, _ => some (.aslZp b1)
  | .asl, .zeroPageX, b1, _ => some (.aslZpX b1)
  | .asl, .absolute, b1, b2 => some (.aslAbs (pair b2 b1))
  | .asl, .absoluteX, b1, b2 => some (.aslAbsX (pair b2 b1))
  | .bit, .zeroPage, b1, _ => some (.bitZp b1)
  | .bit, .absolute, b1, b2 => some (.bitAbs (pair b2 b1))
  | .bpl, .relative, b1, _ => some (.bpl b1)
  | .bmi, .relative, b1, _ => some (.bmi b1)
  | .bcc, .relative, b1, _ => some (.bcc b1)
  | .bcs, .relative, b1, _ => some (.bcs b1)
  | .bne, .relative, b1, _ => some (.bne b1)
  | .beq, .relative, b1, _ => some (.beq b1)
  | _, _, _, _ => none

/-- The instruction with opcode byte `op` and following bytes `b1`, `b2`, of which it takes as many as its length says; none when `op` has no entry (30_encoding.md R85,
R93). -/
def decodeInstr (op b1 b2 : Byte) : Option Instr :=
  match dispatch op with
  | none => none
  | some (mn, md) => assemble mn md b1 b2

/-- What decoding a list of bytes gives. `truncated` and `noBytes` belong to byte lists only: the machine's fetch always finds its bytes, since addresses wrap
(40_addressing.md R111). DESIGN CHOICE (log 18, safe): the spec decodes from memory, not from lists. -/
inductive DecodeResult where
  /-- An instruction, and the bytes after it. -/
  | instr (i : Instr) (rest : List Byte)
  /-- The first byte has no dispatch entry (30_encoding.md R93). -/
  | unsupported (opcode : Byte)
  /-- The opcode is supported and the list ends inside the instruction. -/
  | truncated (opcode : Byte)
  /-- The list is empty. -/
  | noBytes
  deriving DecidableEq, Repr

/-- The decoder over a list of bytes, lowest address first: dispatch on the opcode byte, then exactly `len` bytes (30_encoding.md R80, R85). -/
def decode : List Byte → DecodeResult
  | [] => .noBytes
  | op :: rest =>
    match dispatch op with
    | none => .unsupported op
    | some (mn, md) =>
      if rest.length < md.operandBytes then .truncated op
      else
        match assemble mn md (rest.getD 0 0#8) (rest.getD 1 0#8) with
        | some i => .instr i (rest.drop md.operandBytes)
        | none => .unsupported op

/-- The bytes of a word whose bits the opcode table numbers: byte k is bits 8k+7..8k, and the bits from `nbits` up are zero; three bytes are the longest instruction
(30_encoding.md R84). -/
def tableWordBytes (nbits w : Nat) : List Byte :=
  let v := w % 2 ^ nbits
  [BitVec.ofNat 8 v, BitVec.ofNat 8 (v / 2 ^ 8), BitVec.ofNat 8 (v / 2 ^ 16)]

/-- The instruction this decoder reads from an instruction given as one number (opcode byte in bits 7..0). -/
def decodeTableWord (nbits w : Nat) : Option Instr :=
  match decode (tableWordBytes nbits w) with
  | .instr i _ => some i
  | .unsupported _ => none
  | .truncated _ => none
  | .noBytes => none

/-- The opcode byte of each form, written out again from the rows of 30_encoding.md R90. -/
def opcodeOf : Instr → Byte
  | .adcImm _ => 0x69#8
  | .adcZp _ => 0x65#8
  | .adcZpX _ => 0x75#8
  | .adcAbs _ => 0x6D#8
  | .adcAbsX _ => 0x7D#8
  | .adcAbsY _ => 0x79#8
  | .adcIndX _ => 0x61#8
  | .adcIndY _ => 0x71#8
  | .andImm _ => 0x29#8
  | .andZp _ => 0x25#8
  | .andZpX _ => 0x35#8
  | .andAbs _ => 0x2D#8
  | .andAbsX _ => 0x3D#8
  | .andAbsY _ => 0x39#8
  | .andIndX _ => 0x21#8
  | .andIndY _ => 0x31#8
  | .aslAcc => 0x0A#8
  | .aslZp _ => 0x06#8
  | .aslZpX _ => 0x16#8
  | .aslAbs _ => 0x0E#8
  | .aslAbsX _ => 0x1E#8
  | .bitZp _ => 0x24#8
  | .bitAbs _ => 0x2C#8
  | .bpl _ => 0x10#8
  | .bmi _ => 0x30#8
  | .bcc _ => 0x90#8
  | .bcs _ => 0xB0#8
  | .bne _ => 0xD0#8
  | .beq _ => 0xF0#8

/-- The operand bytes of each form, at ascending addresses; an absolute address is stored low byte first (30_encoding.md R83, R84). -/
def operandsOf : Instr → List Byte
  | .adcImm imm => [imm]
  | .adcZp zp => [zp]
  | .adcZpX zp => [zp]
  | .adcAbs addr => [loByte addr, hiByte addr]
  | .adcAbsX addr => [loByte addr, hiByte addr]
  | .adcAbsY addr => [loByte addr, hiByte addr]
  | .adcIndX zp => [zp]
  | .adcIndY zp => [zp]
  | .andImm imm => [imm]
  | .andZp zp => [zp]
  | .andZpX zp => [zp]
  | .andAbs addr => [loByte addr, hiByte addr]
  | .andAbsX addr => [loByte addr, hiByte addr]
  | .andAbsY addr => [loByte addr, hiByte addr]
  | .andIndX zp => [zp]
  | .andIndY zp => [zp]
  | .aslAcc => []
  | .aslZp zp => [zp]
  | .aslZpX zp => [zp]
  | .aslAbs addr => [loByte addr, hiByte addr]
  | .aslAbsX addr => [loByte addr, hiByte addr]
  | .bitZp zp => [zp]
  | .bitAbs addr => [loByte addr, hiByte addr]
  | .bpl rel => [rel]
  | .bmi rel => [rel]
  | .bcc rel => [rel]
  | .bcs rel => [rel]
  | .bne rel => [rel]
  | .beq rel => [rel]

/-- The bytes of an instruction, opcode first (30_encoding.md R80). -/
def encode (i : Instr) : List Byte := opcodeOf i :: operandsOf i

end Sys2Proof
end

