-- ==== Sys2Proof/Config.lean ====
section
/-! DEFINITION. What is fixed for this hardware (00_scope.md R6: "None of these is configurable"). The spec leaves no value free (R7, R42), so there is no
opaque constant here. The decisions D1 to D24 are followed where the rules state them, in Decode.lean and Machine/. -/

namespace Sys2Proof

/-- "exactly 65,536 addressable bytes" (10_state.md R39). -/
def Config.memorySize : Nat := 65536

/-- What an address that memory does not list reads as: the reset value of every byte (10_state.md R41, 20_memory.md R52). -/
def Config.unlistedByte : Byte := 0x00#8

end Sys2Proof
end

