-- ==== Sys2Proof/Machine/State.lean ====
section
/-! DEFINITION. The System State (00_scope.md R13, 10_state.md) as plain data, the reasons a step can stop, and the state after Reset (R41, 70_reset_and_hazards.md R290). -/

namespace Sys2Proof.Machine

/-- The 65,536-byte memory (10_state.md R39, 20_memory.md R50) as the list of its cells that do not read as `Config.unlistedByte`, by strictly rising
address. DESIGN CHOICE (log 1, safe): a form of the same array in which equal memories are equal data. -/
structure Memory where
  cells : List Host.Cell
  deriving DecidableEq, Repr

/-- The whole System State: "Nothing else" (00_scope.md R13). No stack pointer, cycle counter, pending latch, fault bit or packed status byte exists (10_state.md R33, R38, R40). -/
structure State where
  /-- A, the accumulator (R21). -/
  a : Byte
  /-- X, an index register (R22). -/
  x : Byte
  /-- Y, an index register (R23). -/
  y : Byte
  /-- PC, the address of the next opcode byte (R24, R25). DESIGN CHOICE (log 3, safe): one 16-bit number, as R24 allows. -/
  pc : Addr
  /-- N, negative (R29). -/
  flagN : Bool
  /-- V, overflow (R31). -/
  flagV : Bool
  /-- D, decimal mode (R34). -/
  flagD : Bool
  /-- Z, zero (R30). -/
  flagZ : Bool
  /-- C, carry (R32). -/
  flagC : Bool
  /-- I, the placeholder no instruction reads or writes (R35). UNVERIFIED (log 2, safe): six cells by decision D10. -/
  flagI : Bool
  /-- The memory (R39). -/
  mem : Memory
  deriving DecidableEq, Repr

/-- The reasons the core reports a step as not executed. -/
inductive Fault where
  /-- `UnsupportedInstruction(opcode)`, the one exception (60_exceptions.md R260): raised by `step` when the opcode byte has no dispatch entry. The step changes nothing (R261). Safe: the
  model stops where the core hands the condition to the host (log 14). -/
  | unsupportedInstruction (opcode : Byte)
  deriving DecidableEq, Repr

/-- The reasons the model has no meaning for an instruction. -/
inductive Refusal where
  /-- An instruction of the table without a meaning yet: raised only by an arm of `exec`; no arm of this model does. Safe. -/
  | notModelled (mnemonic : String)
  deriving DecidableEq, Repr

/-- The state Reset leaves: every register, flag and memory byte zero, and no vector read (10_state.md R41, 70_reset_and_hazards.md R290, R291). -/
def State.reset : State :=
  { a := 0x00#8, x := 0x00#8, y := 0x00#8, pc := 0x0000#16, flagN := false, flagV := false, flagD := false, flagZ := false,
    flagC := false, flagI := false, mem := ⟨[]⟩ }

end Sys2Proof.Machine
end

