-- ==== Sys2Proof/Machine/Ops.lean ====
section
/-! DEFINITION. The named operations over memory and registers that every meaning uses, and raising the one exception. -/

namespace Sys2Proof.Machine

/-- `zext_16(b)` (00_scope.md R9). -/
def zext16 (b : Byte) : Addr := b.setWidth 16

/-- `sext_16(b)`, the byte read as two's complement (00_scope.md R9). -/
def sext16 (b : Byte) : Addr := b.signExtend 16

/-- The byte a list of cells gives at an address. -/
def lookupCell : List Host.Cell → Nat → Byte
  | [], _ => Config.unlistedByte
  | (k, w) :: rest, key => if key = k then w else lookupCell rest key

/-- The list of cells with the byte at `key` set to `v`: the cell is put at its place, or left out where `v` is what an unlisted address reads as. -/
def setCell : List Host.Cell → Nat → Byte → List Host.Cell
  | [], key, v => if v = Config.unlistedByte then [] else [(key, v)]
  | (k, w) :: rest, key, v =>
    if key < k then (if v = Config.unlistedByte then (k, w) :: rest else (key, v) :: (k, w) :: rest)
    else if key = k then (if v = Config.unlistedByte then rest else (key, v) :: rest)
    else (k, w) :: setCell rest key v

/-- Cells in canonical form from address `low` up: addresses strictly rising and inside the address space, no cell that reads as an unlisted address does. -/
def canonicalFrom : Nat → List Host.Cell → Bool
  | _, [] => true
  | low, (k, w) :: rest =>
    decide (low ≤ k) && decide (k < Config.memorySize) && decide (w ≠ Config.unlistedByte) && canonicalFrom (k + 1) rest

/-- The canonical form of memory (log 1). -/
def Memory.wf (m : Memory) : Bool := canonicalFrom 0 m.cells

/-- `M[addr]` (20_memory.md R50): every address is admitted (R51). -/
def Memory.read (m : Memory) (addr : Addr) : Byte := lookupCell m.cells addr.toNat

/-- `M[addr] <- v` (20_memory.md R53). -/
def Memory.write (m : Memory) (addr : Addr) (v : Byte) : Memory := ⟨setCell m.cells addr.toNat v⟩

/-- `MemRead(addr, 1)` (20_memory.md R52). -/
def State.readByte (s : State) (addr : Addr) : Byte := s.mem.read addr

/-- `MemWrite(addr, 1, v)`: one byte, nothing else (20_memory.md R53). -/
def State.writeByte (s : State) (addr : Addr) (v : Byte) : State := { s with mem := s.mem.write addr v }

/-- `A <- v`. -/
def State.setA (s : State) (v : Byte) : State := { s with a := v }

/-- `X <- v`: no instruction does this, only the host (10_state.md R22). -/
def State.setX (s : State) (v : Byte) : State := { s with x := v }

/-- `Y <- v`: no instruction does this, only the host (10_state.md R23). -/
def State.setY (s : State) (v : Byte) : State := { s with y := v }

/-- `PC <- target`. -/
def State.setPC (s : State) (target : Addr) : State := { s with pc := target }

/-- `N <- b`. -/
def State.setN (s : State) (b : Bool) : State := { s with flagN := b }

/-- `V <- b`. -/
def State.setV (s : State) (b : Bool) : State := { s with flagV := b }

/-- `D <- b`: no instruction does this, only the host (10_state.md R34). -/
def State.setD (s : State) (b : Bool) : State := { s with flagD := b }

/-- `Z <- b`. -/
def State.setZ (s : State) (b : Bool) : State := { s with flagZ := b }

/-- `C <- b`. -/
def State.setC (s : State) (b : Bool) : State := { s with flagC := b }

/-- `I <- b`: no instruction does this, only the host (10_state.md R35). -/
def State.setI (s : State) (b : Bool) : State := { s with flagI := b }

/-- PCH, the high byte of the program counter (10_state.md R24). -/
def State.pch (s : State) : Byte := hiByte s.pc

/-- PCL, the low byte of the program counter (10_state.md R24). -/
def State.pcl (s : State) : Byte := loByte s.pc

/-- `PC <- pc0 +_16 len` (10_state.md R26): the wrap past 0xFFFF is silent. UNVERIFIED (log 11, unsafe): decision D17. -/
def State.advance (s : State) (len : Nat) : State := s.setPC (s.pc + BitVec.ofNat 16 len)

/-- Raising the core's one exception: the step ends with the fault and nothing is changed, saved, vectored or masked (60_exceptions.md R260, R261, R267). There is no return
from it beside this operation: the core has none, and the host continues by writing PC or memory and stepping again (R268).
UNVERIFIED (log 14, safe): decisions D6 and D24. -/
def raiseUnsupported (opcode : Byte) : Host.Outcome State Fault Refusal := .fault (.unsupportedInstruction opcode)

end Sys2Proof.Machine
end

