-- ==== Sys2Proof/Machine/Flags.lean ====
section
/-! DEFINITION. The arithmetic of the executors and every flag computation: the two adders and the two-stage sum of ADC (41_adc.md R140 to R148), negative and zero (10_state.md
R29, R30), overflow (R31) and the shift of ASL (42_and_asl_bit.md R180, R181). -/

namespace Sys2Proof.Machine

/-- N of a result: "high bit of the result" (10_state.md R29). -/
def negativeOf (r : Byte) : Bool := r.getLsbD 7

/-- Z of a result: "result equals zero" (10_state.md R30). -/
def zeroOf (r : Byte) : Bool := r == 0x00#8

/-- `N <- R[7] ; Z <- (R = 0x00)` (10_state.md R36). In decimal mode too (41_adc.md R146); UNVERIFIED (log 7, unsafe): decision D19. -/
def State.setNZ (s : State) (r : Byte) : State := (s.setN (negativeOf r)).setZ (zeroOf r)

/-- A byte sum with its carry out. -/
structure Sum where
  result : Byte
  carry : Bool
  deriving DecidableEq, Repr

/-- One binary stage: `t <- a + b`, `t[7:0]` and `t[8]` of the 9-bit sum (41_adc.md R141). -/
def binaryAdd (a b : Byte) : Sum :=
  let t : BitVec 9 := a.setWidth 9 + b.setWidth 9
  ⟨t.setWidth 8, t.getLsbD 8⟩

/-- `v[3:0]` (00_scope.md R8). -/
def lowNibble (v : Byte) : BitVec 4 := v.extractLsb' 0 4

/-- `v[7:4]` (00_scope.md R8). -/
def highNibble (v : Byte) : BitVec 4 := v.extractLsb' 4 4

/-- A nibble sum above 9 is "corrected by subtracting 10", once, with a carry out (41_adc.md R140). -/
def correctDigit (sum : Nat) : Nat × Nat := if 9 < sum then (sum - 10, 1) else (sum, 0)

/-- `BcdAdd(a, b)`, for every pair of bytes (41_adc.md R140). For a nibble above 9 the rule is applied literally (R148); UNVERIFIED (log 6, unsafe): decision D5. -/
def bcdAdd (a b : Byte) : Sum :=
  let low := correctDigit ((lowNibble a).toNat + (lowNibble b).toNat)
  let high := correctDigit ((highNibble a).toNat + (highNibble b).toNat + low.2)
  ⟨BitVec.ofNat 4 high.1 ++ BitVec.ofNat 4 low.1, high.2 == 1⟩

/-- The carry in as the byte 0x00 or 0x01 (41_adc.md R141). -/
def carryByte (c : Bool) : Byte := if c then 0x01#8 else 0x00#8

/-- The two-stage accumulation, operand first and carry in second, with the OR of both carries out (41_adc.md R143, R144). UNVERIFIED (log 5, unsafe):
decision D4. -/
def twoStage (add : Byte → Byte → Sum) (a m : Byte) (cin : Bool) : Sum :=
  let first := add a m
  let second := add first.result (carryByte cin)
  ⟨second.result, first.carry || second.carry⟩

/-- The sum of ADC: D selects BCD addition when 1, binary addition when 0 (41_adc.md R141, R142). -/
def adcSum (decimal : Bool) (a m : Byte) (cin : Bool) : Sum :=
  if decimal then twoStage bcdAdd a m cin else twoStage binaryAdd a m cin

/-- `V <- ((A0 ^ R) & (M ^ R))[7]`, in both modes (41_adc.md R145). UNVERIFIED (log 4, unsafe): decisions D1 and D2. -/
def overflowOf (a m r : Byte) : Bool := ((a ^^^ r) &&& (m ^^^ r)).getLsbD 7

/-- ASL's result and the bit shifted out: `R <- (v << 1)[7:0]`, `C <- v[7]` (42_and_asl_bit.md R180, R181). UNVERIFIED (log 8, unsafe): decision D3. -/
def shiftLeft (v : Byte) : Sum := ⟨v <<< 1, v.getLsbD 7⟩

end Sys2Proof.Machine
end

