-- ==== Sys2Proof/Machine/Operands.lean ====
section
/-! DEFINITION. The addressing-mode resolver (40_addressing.md R110): every mode's effective address and page cross, and the operand byte it delivers. It
writes nothing. Instructions run with `pc` still at their opcode byte (10_state.md R25); their operand bytes are in the Instr.
UNVERIFIED (log 11, unsafe): wraps of indexed addresses, decision D21. -/

namespace Sys2Proof.Machine

/-- What the resolver hands out for a mode with an address (40_addressing.md R110). -/
structure Resolved where
  /-- `ea`, the effective address. -/
  ea : Addr
  /-- `page_cross`. -/
  pageCross : Bool
  deriving DecidableEq, Repr

/-- Absolute (40_addressing.md R113). -/
def resolveAbsolute (addr : Addr) : Resolved := ⟨addr, false⟩

/-- Zero Page (40_addressing.md R114). -/
def resolveZeroPage (zp : Byte) : Resolved := ⟨zext16 zp, false⟩

/-- Zero Page,X: the sum wraps inside the zero page and never crosses (40_addressing.md R115). -/
def resolveZeroPageX (zp : Byte) (s : State) : Resolved := ⟨zext16 (zp + s.x), false⟩

/-- `base +_16 zext_16(index)`, crossing when the low-byte sum exceeds 0xFF (40_addressing.md R116, R117, R125). -/
def indexed (base : Addr) (index : Byte) : Resolved :=
  ⟨base + zext16 index, decide (0xFF < (loByte base).toNat + index.toNat)⟩

/-- Absolute,X (40_addressing.md R116). -/
def resolveAbsoluteX (addr : Addr) (s : State) : Resolved := indexed addr s.x

/-- Absolute,Y (40_addressing.md R117). -/
def resolveAbsoluteY (addr : Addr) (s : State) : Resolved := indexed addr s.y

/-- The 16-bit pointer at zero-page address `p`: low byte there, high byte at `p +_8 1`, inside the zero page (20_memory.md R55, 40_addressing.md R126). -/
def readPointer (p : Byte) (s : State) : Addr := pair (s.readByte (zext16 (p + 1#8))) (s.readByte (zext16 p))

/-- (Zero Page,X), indexed indirect (40_addressing.md R118). -/
def resolveIndirectX (zp : Byte) (s : State) : Resolved := ⟨readPointer (zp + s.x) s, false⟩

/-- (Zero Page),Y, indirect indexed (40_addressing.md R119). -/
def resolveIndirectY (zp : Byte) (s : State) : Resolved := indexed (readPointer zp s) s.y

/-- The resolver over a whole instruction; none for the modes without an effective address, Immediate (40_addressing.md R112), Accumulator (R120) and Relative (R121). -/
def resolve : Instr → State → Option Resolved
  | .adcZp zp, _ | .andZp zp, _ | .aslZp zp, _ | .bitZp zp, _ => some (resolveZeroPage zp)
  | .adcZpX zp, s | .andZpX zp, s | .aslZpX zp, s => some (resolveZeroPageX zp s)
  | .adcAbs addr, _ | .andAbs addr, _ | .aslAbs addr, _ | .bitAbs addr, _ => some (resolveAbsolute addr)
  | .adcAbsX addr, s | .andAbsX addr, s | .aslAbsX addr, s => some (resolveAbsoluteX addr s)
  | .adcAbsY addr, s | .andAbsY addr, s => some (resolveAbsoluteY addr s)
  | .adcIndX zp, s | .andIndX zp, s => some (resolveIndirectX zp s)
  | .adcIndY zp, s | .andIndY zp, s => some (resolveIndirectY zp s)
  | .adcImm _, _ | .andImm _, _ | .aslAcc, _ => none
  | .bpl _, _ | .bmi _, _ | .bcc _, _ | .bcs _, _ | .bne _, _ | .beq _, _ => none

/-- From address to operand: `M <- MemRead(ea, 1)` (40_addressing.md R123). -/
def State.operandAt (s : State) (r : Resolved) : Byte := s.readByte r.ea

/-- The operand byte of an instruction without an effective address: `M <- b1` (40_addressing.md R112), `M <- A` (R120); a branch has none (R121). -/
def directOperand : Instr → State → Option Byte
  | .adcImm imm, _ | .andImm imm, _ => some imm
  | .aslAcc, s => some s.a
  | .adcZp _, _ | .andZp _, _ | .aslZp _, _ | .bitZp _, _ | .adcZpX _, _ | .andZpX _, _ | .aslZpX _, _ => none
  | .adcAbs _, _ | .andAbs _, _ | .aslAbs _, _ | .bitAbs _, _ | .adcAbsX _, _ | .andAbsX _, _ | .aslAbsX _, _ => none
  | .adcAbsY _, _ | .andAbsY _, _ | .adcIndX _, _ | .andIndX _, _ | .adcIndY _, _ | .andIndY _, _ => none
  | .bpl _, _ | .bmi _, _ | .bcc _, _ | .bcs _, _ | .bne _, _ | .beq _, _ => none

/-- `M`, the operand byte the resolver and the operand read deliver to ADC, AND, ASL and BIT (40_addressing.md R112 to R120, R123). -/
def operand (i : Instr) (s : State) : Option Byte :=
  match resolve i s with
  | some r => some (s.operandAt r)
  | none => directOperand i s

end Sys2Proof.Machine
end

