-- ==== Sys2Proof/Machine/Adc.lean ====
section
/-! DEFINITION. ADC, add with carry, in its eight forms (41_adc.md R141, R150 to R157). -/

namespace Sys2Proof.Machine

/-- `ADC(M)` (41_adc.md R141): writes A, C, V, N and Z from the values before the instruction. -/
def adc (m : Byte) (s : State) : State :=
  let sum := adcSum s.flagD s.a m s.flagC
  (((s.setA sum.result).setNZ sum.result).setV (overflowOf s.a m sum.result)).setC sum.carry

/-- ADC Immediate, 0x69 (41_adc.md R150). -/
def execAdcImm (imm : Byte) (s : State) : Host.Outcome State Fault Refusal := .next ((adc imm s).advance 2)

/-- ADC Zero Page, 0x65 (41_adc.md R151). -/
def execAdcZp (zp : Byte) (s : State) : Host.Outcome State Fault Refusal :=
  .next ((adc (s.operandAt (resolveZeroPage zp)) s).advance 2)

/-- ADC Zero Page,X, 0x75 (41_adc.md R152). -/
def execAdcZpX (zp : Byte) (s : State) : Host.Outcome State Fault Refusal :=
  .next ((adc (s.operandAt (resolveZeroPageX zp s)) s).advance 2)

/-- ADC Absolute, 0x6D (41_adc.md R153). -/
def execAdcAbs (addr : Addr) (s : State) : Host.Outcome State Fault Refusal :=
  .next ((adc (s.operandAt (resolveAbsolute addr)) s).advance 3)

/-- ADC Absolute,X, 0x7D (41_adc.md R154). -/
def execAdcAbsX (addr : Addr) (s : State) : Host.Outcome State Fault Refusal :=
  .next ((adc (s.operandAt (resolveAbsoluteX addr s)) s).advance 3)

/-- ADC Absolute,Y, 0x79 (41_adc.md R155). -/
def execAdcAbsY (addr : Addr) (s : State) : Host.Outcome State Fault Refusal :=
  .next ((adc (s.operandAt (resolveAbsoluteY addr s)) s).advance 3)

/-- ADC (Zero Page,X), 0x61 (41_adc.md R156). -/
def execAdcIndX (zp : Byte) (s : State) : Host.Outcome State Fault Refusal :=
  .next ((adc (s.operandAt (resolveIndirectX zp s)) s).advance 2)

/-- ADC (Zero Page),Y, 0x71 (41_adc.md R157). -/
def execAdcIndY (zp : Byte) (s : State) : Host.Outcome State Fault Refusal :=
  .next ((adc (s.operandAt (resolveIndirectY zp s)) s).advance 2)

end Sys2Proof.Machine
end

