-- ==== Sys2Proof/Machine/And.lean ====
section
/-! DEFINITION. AND, bitwise AND of memory with the accumulator, in its eight forms (42_and_asl_bit.md R170 to R178). -/

namespace Sys2Proof.Machine

/-- `AND(M)` (42_and_asl_bit.md R170): writes A, N and Z only. -/
def andA (m : Byte) (s : State) : State := (s.setA (s.a &&& m)).setNZ (s.a &&& m)

/-- AND Immediate, 0x29 (42_and_asl_bit.md R171). -/
def execAndImm (imm : Byte) (s : State) : Host.Outcome State Fault Refusal := .next ((andA imm s).advance 2)

/-- AND Zero Page, 0x25 (42_and_asl_bit.md R172). -/
def execAndZp (zp : Byte) (s : State) : Host.Outcome State Fault Refusal :=
  .next ((andA (s.operandAt (resolveZeroPage zp)) s).advance 2)

/-- AND Zero Page,X, 0x35 (42_and_asl_bit.md R173). -/
def execAndZpX (zp : Byte) (s : State) : Host.Outcome State Fault Refusal :=
  .next ((andA (s.operandAt (resolveZeroPageX zp s)) s).advance 2)

/-- AND Absolute, 0x2D (42_and_asl_bit.md R174). -/
def execAndAbs (addr : Addr) (s : State) : Host.Outcome State Fault Refusal :=
  .next ((andA (s.operandAt (resolveAbsolute addr)) s).advance 3)

/-- AND Absolute,X, 0x3D (42_and_asl_bit.md R175). -/
def execAndAbsX (addr : Addr) (s : State) : Host.Outcome State Fault Refusal :=
  .next ((andA (s.operandAt (resolveAbsoluteX addr s)) s).advance 3)

/-- AND Absolute,Y, 0x39 (42_and_asl_bit.md R176). -/
def execAndAbsY (addr : Addr) (s : State) : Host.Outcome State Fault Refusal :=
  .next ((andA (s.operandAt (resolveAbsoluteY addr s)) s).advance 3)

/-- AND (Zero Page,X), 0x21 (42_and_asl_bit.md R177). -/
def execAndIndX (zp : Byte) (s : State) : Host.Outcome State Fault Refusal :=
  .next ((andA (s.operandAt (resolveIndirectX zp s)) s).advance 2)

/-- AND (Zero Page),Y, 0x31 (42_and_asl_bit.md R178). -/
def execAndIndY (zp : Byte) (s : State) : Host.Outcome State Fault Refusal :=
  .next ((andA (s.operandAt (resolveIndirectY zp s)) s).advance 2)

end Sys2Proof.Machine
end

