-- ==== Sys2Proof/Machine/Asl.lean ====
section
/-! DEFINITION. ASL, arithmetic shift left, on the accumulator and on memory (42_and_asl_bit.md R179 to R187). -/

namespace Sys2Proof.Machine

/-- The flags of `ASL(loc)` for the byte `v`: C, N and Z (42_and_asl_bit.md R180 to R182). -/
def aslFlags (v : Byte) (s : State) : State := (s.setNZ (shiftLeft v).result).setC (shiftLeft v).carry

/-- `ASL(loc)` with `loc` the accumulator: memory is not accessed (42_and_asl_bit.md R180). -/
def aslA (s : State) : State := (aslFlags s.a s).setA (shiftLeft s.a).result

/-- `ASL(loc)` with `loc` the byte at `ea`: one read and one write of `ea`, A neither read nor written (42_and_asl_bit.md R180, 40_addressing.md R123). -/
def aslMem (r : Resolved) (s : State) : State := (aslFlags (s.operandAt r) s).writeByte r.ea (shiftLeft (s.operandAt r)).result

/-- ASL Accumulator, 0x0A (42_and_asl_bit.md R183). -/
def execAslAcc (s : State) : Host.Outcome State Fault Refusal := .next ((aslA s).advance 1)

/-- ASL Zero Page, 0x06 (42_and_asl_bit.md R184). -/
def execAslZp (zp : Byte) (s : State) : Host.Outcome State Fault Refusal := .next ((aslMem (resolveZeroPage zp) s).advance 2)

/-- ASL Zero Page,X, 0x16 (42_and_asl_bit.md R185). -/
def execAslZpX (zp : Byte) (s : State) : Host.Outcome State Fault Refusal := .next ((aslMem (resolveZeroPageX zp s) s).advance 2)

/-- ASL Absolute, 0x0E (42_and_asl_bit.md R186). -/
def execAslAbs (addr : Addr) (s : State) : Host.Outcome State Fault Refusal := .next ((aslMem (resolveAbsolute addr) s).advance 3)

/-- ASL Absolute,X, 0x1E (42_and_asl_bit.md R187). -/
def execAslAbsX (addr : Addr) (s : State) : Host.Outcome State Fault Refusal := .next ((aslMem (resolveAbsoluteX addr s) s).advance 3)

end Sys2Proof.Machine
end

