-- ==== Sys2Proof/Machine/Bit.lean ====
section
/-! DEFINITION. BIT, test bits of memory against the accumulator (42_and_asl_bit.md R188 to R191). -/

namespace Sys2Proof.Machine

/-- `BIT(M)` (42_and_asl_bit.md R188): N and V from the operand alone, Z from `A & M`; no register and no memory byte is written. -/
def bitTest (m : Byte) (s : State) : State :=
  ((s.setN (m.getLsbD 7)).setV (m.getLsbD 6)).setZ (zeroOf (s.a &&& m))

/-- BIT Zero Page, 0x24 (42_and_asl_bit.md R190). -/
def execBitZp (zp : Byte) (s : State) : Host.Outcome State Fault Refusal :=
  .next ((bitTest (s.operandAt (resolveZeroPage zp)) s).advance 2)

/-- BIT Absolute, 0x2C (42_and_asl_bit.md R191). -/
def execBitAbs (addr : Addr) (s : State) : Host.Outcome State Fault Refusal :=
  .next ((bitTest (s.operandAt (resolveAbsolute addr)) s).advance 3)

end Sys2Proof.Machine
end

