-- ==== Sys2Proof/Machine/Branch.lean ====
section
/-! DEFINITION. The six conditional branches (43_branches.md R200 to R215): one shared operation, parameterised by a condition on one flag.
UNVERIFIED (log 10, unsafe): the flag and value each mnemonic tests are the spec's decision D15. -/

namespace Sys2Proof.Machine

/-- The address of the next sequential instruction, `pc0 +_16 2` (43_branches.md R204). -/
def branchNext (s : State) : Addr := s.pc + 2#16

/-- `target = pc0 +_16 2 +_16 sext_16(disp)` (43_branches.md R201, R202). -/
def branchTarget (rel : Byte) (s : State) : Addr := s.pc + 2#16 + sext16 rel

/-- `Branch(cond)`: PC goes to the target when the condition holds and to the next instruction when not; nothing else changes (43_branches.md R200, R205, R208). -/
def branch (cond : Bool) (rel : Byte) (s : State) : State :=
  if cond then s.setPC (branchTarget rel s) else s.setPC (branchNext s)

/-- BPL taken when N = 0 (43_branches.md R206). -/
def condBpl (s : State) : Bool := !s.flagN

/-- BMI taken when N = 1 (43_branches.md R206). -/
def condBmi (s : State) : Bool := s.flagN

/-- BCC taken when C = 0 (43_branches.md R206). -/
def condBcc (s : State) : Bool := !s.flagC

/-- BCS taken when C = 1 (43_branches.md R206). -/
def condBcs (s : State) : Bool := s.flagC

/-- BNE taken when Z = 0 (43_branches.md R206). -/
def condBne (s : State) : Bool := !s.flagZ

/-- BEQ taken when Z = 1 (43_branches.md R206). -/
def condBeq (s : State) : Bool := s.flagZ

/-- The condition and displacement of a branch, none for another instruction (43_branches.md R206). -/
def branchOf : Instr → State → Option (Bool × Byte)
  | .bpl rel, s => some (condBpl s, rel)
  | .bmi rel, s => some (condBmi s, rel)
  | .bcc rel, s => some (condBcc s, rel)
  | .bcs rel, s => some (condBcs s, rel)
  | .bne rel, s => some (condBne s, rel)
  | .beq rel, s => some (condBeq s, rel)
  | .adcImm _, _ | .adcZp _, _ | .adcZpX _, _ | .adcAbs _, _ | .adcAbsX _, _ | .adcAbsY _, _ | .adcIndX _, _ | .adcIndY _, _ => none
  | .andImm _, _ | .andZp _, _ | .andZpX _, _ | .andAbs _, _ | .andAbsX _, _ | .andAbsY _, _ | .andIndX _, _ | .andIndY _, _ => none
  | .aslAcc, _ | .aslZp _, _ | .aslZpX _, _ | .aslAbs _, _ | .aslAbsX _, _ | .bitZp _, _ | .bitAbs _, _ => none

/-- BPL, 0x10 (43_branches.md R210). -/
def execBpl (rel : Byte) (s : State) : Host.Outcome State Fault Refusal := .next (branch (condBpl s) rel s)

/-- BMI, 0x30 (43_branches.md R211). -/
def execBmi (rel : Byte) (s : State) : Host.Outcome State Fault Refusal := .next (branch (condBmi s) rel s)

/-- BCC, 0x90 (43_branches.md R212). -/
def execBcc (rel : Byte) (s : State) : Host.Outcome State Fault Refusal := .next (branch (condBcc s) rel s)

/-- BCS, 0xB0 (43_branches.md R213). -/
def execBcs (rel : Byte) (s : State) : Host.Outcome State Fault Refusal := .next (branch (condBcs s) rel s)

/-- BNE, 0xD0 (43_branches.md R214). -/
def execBne (rel : Byte) (s : State) : Host.Outcome State Fault Refusal := .next (branch (condBne s) rel s)

/-- BEQ, 0xF0 (43_branches.md R215). -/
def execBeq (rel : Byte) (s : State) : Host.Outcome State Fault Refusal := .next (branch (condBeq s) rel s)

end Sys2Proof.Machine
end

