-- ==== Sys2Proof/Machine/Dispatch.lean ====
section
/-! DEFINITION. The executor of every instruction (44_step.md R231, R232): one arm for each opcode form. -/

namespace Sys2Proof.Machine

/-- "execute mne" of 44_step.md R232, with the advance of PC (R238). -/
def exec (i : Instr) (s : State) : Host.Outcome State Fault Refusal :=
  match i with
  | .adcImm imm => Sys2Proof.Machine.execAdcImm imm s
  | .adcZp zp => Sys2Proof.Machine.execAdcZp zp s
  | .adcZpX zp => Sys2Proof.Machine.execAdcZpX zp s
  | .adcAbs addr => Sys2Proof.Machine.execAdcAbs addr s
  | .adcAbsX addr => Sys2Proof.Machine.execAdcAbsX addr s
  | .adcAbsY addr => Sys2Proof.Machine.execAdcAbsY addr s
  | .adcIndX zp => Sys2Proof.Machine.execAdcIndX zp s
  | .adcIndY zp => Sys2Proof.Machine.execAdcIndY zp s
  | .andImm imm => Sys2Proof.Machine.execAndImm imm s
  | .andZp zp => Sys2Proof.Machine.execAndZp zp s
  | .andZpX zp => Sys2Proof.Machine.execAndZpX zp s
  | .andAbs addr => Sys2Proof.Machine.execAndAbs addr s
  | .andAbsX addr => Sys2Proof.Machine.execAndAbsX addr s
  | .andAbsY addr => Sys2Proof.Machine.execAndAbsY addr s
  | .andIndX zp => Sys2Proof.Machine.execAndIndX zp s
  | .andIndY zp => Sys2Proof.Machine.execAndIndY zp s
  | .aslAcc => Sys2Proof.Machine.execAslAcc s
  | .aslZp zp => Sys2Proof.Machine.execAslZp zp s
  | .aslZpX zp => Sys2Proof.Machine.execAslZpX zp s
  | .aslAbs addr => Sys2Proof.Machine.execAslAbs addr s
  | .aslAbsX addr => Sys2Proof.Machine.execAslAbsX addr s
  | .bitZp zp => Sys2Proof.Machine.execBitZp zp s
  | .bitAbs addr => Sys2Proof.Machine.execBitAbs addr s
  | .bpl rel => Sys2Proof.Machine.execBpl rel s
  | .bmi rel => Sys2Proof.Machine.execBmi rel s
  | .bcc rel => Sys2Proof.Machine.execBcc rel s
  | .bcs rel => Sys2Proof.Machine.execBcs rel s
  | .bne rel => Sys2Proof.Machine.execBne rel s
  | .beq rel => Sys2Proof.Machine.execBeq rel s

end Sys2Proof.Machine
end

