-- ==== Sys2Proof/Machine/Fetch.lean ====
section
/-! DEFINITION. Fetching an instruction from memory (20_memory.md R56, 40_addressing.md R111, 44_step.md R231) and laying one there. -/

namespace Sys2Proof.Machine

/-- The opcode byte, `MemRead(pc0, 1)` (44_step.md R232). -/
def fetchOpcode (s : State) : Byte := s.readByte s.pc

/-- `b1 = MemRead(pc0 +_16 1, 1)` (40_addressing.md R111): the address wraps. UNVERIFIED (log 11, unsafe): decision D20. -/
def fetchB1 (s : State) : Byte := s.readByte (s.pc + 1#16)

/-- `b2 = MemRead(pc0 +_16 2, 1)` (40_addressing.md R111). -/
def fetchB2 (s : State) : Byte := s.readByte (s.pc + 2#16)

/-- The instruction at PC, or none when its opcode byte has no dispatch entry. Only the bytes of the instruction's length take part (30_encoding.md R80, R85); which bytes a
step reads is said by `stepAccesses` (44_step.md R233, R236). -/
def fetchInstr (s : State) : Option Instr := decodeInstr (fetchOpcode s) (fetchB1 s) (fetchB2 s)

/-- The state with `bytes` stored at ascending addresses from `addr`, modulo 65,536: the host's writes between steps (70_reset_and_hazards.md R293). -/
def layBytes : List Byte → Addr → State → State
  | [], _, s => s
  | b :: rest, addr, s => layBytes rest (addr + 1#16) (s.writeByte addr b)

end Sys2Proof.Machine
end

