-- ==== Sys2Proof/Machine/Step.lean ====
section
/-! DEFINITION. The core's one operation (44_step.md R230, R232). -/

namespace Sys2Proof.Machine

/-- `Step` (44_step.md R232): fetch at PC, dispatch, execute; an opcode byte without an entry raises the one exception before anything else is read or written (R233). The
cycle count, the other part of R230's outcome, is `stepCycles` (log 12). -/
def step (s : State) : Host.Outcome State Fault Refusal :=
  match fetchInstr s with
  | some i => exec i s
  | none => raiseUnsupported (fetchOpcode s)

/-- `s` with the instruction whose bits are `w` stored at PC, low byte of `w` first (log 17): the host's load of a program (70_reset_and_hazards.md R293). -/
def State.withFetchWord (s : State) (nbits w : Nat) : State := layBytes (tableWordBytes nbits w) s.pc s

end Sys2Proof.Machine
end

