-- ==== Sys2Proof/Machine/Accesses.lean ====
section
/-! DEFINITION. The memory accesses of one step in the order of 44_step.md R236. They exist only within the step and no state holds them (10_state.md R40).
UNVERIFIED (log 15, safe): order and number by decision D9; neither is observable (20_memory.md R65). -/

namespace Sys2Proof.Machine

/-- One access: `R addr` or `W addr` with the byte written (44_step.md R236). -/
inductive Access where
  | read (addr : Addr)
  | write (addr : Addr) (v : Byte)
  deriving DecidableEq, Repr

/-- The reads of the operand bytes `b1` and `b2` (40_addressing.md R111, R128). -/
def operandFetches (md : Mode) (s : State) : List Access :=
  match md.operandBytes with
  | 0 => []
  | 1 => [.read (s.pc + 1#16)]
  | _ => [.read (s.pc + 1#16), .read (s.pc + 2#16)]

/-- The two reads of a zero-page pointer at `p`, low byte first (40_addressing.md R118, R119). -/
def pointerReads (p : Byte) : List Access := [.read (zext16 p), .read (zext16 (p + 1#8))]

/-- The pointer reads of the two indirect modes, none for the others (40_addressing.md R128). -/
def pointerFetches : Instr → State → List Access
  | .adcIndX zp, s | .andIndX zp, s => pointerReads (zp + s.x)
  | .adcIndY zp, _ | .andIndY zp, _ => pointerReads zp
  | .adcImm _, _ | .adcZp _, _ | .adcZpX _, _ | .adcAbs _, _ | .adcAbsX _, _ | .adcAbsY _, _ => []
  | .andImm _, _ | .andZp _, _ | .andZpX _, _ | .andAbs _, _ | .andAbsX _, _ | .andAbsY _, _ => []
  | .aslAcc, _ | .aslZp _, _ | .aslZpX _, _ | .aslAbs _, _ | .aslAbsX _, _ | .bitZp _, _ | .bitAbs _, _ => []
  | .bpl _, _ | .bmi _, _ | .bcc _, _ | .bcs _, _ | .bne _, _ | .beq _, _ => []

/-- The read of the operand byte at `ea`, where the mode has one (40_addressing.md R123). -/
def operandRead (i : Instr) (s : State) : List Access :=
  match resolve i s with
  | some r => [.read r.ea]
  | none => []

/-- The one write of ASL in a memory mode (20_memory.md R53, 42_and_asl_bit.md R180). -/
def writeBack (i : Instr) (s : State) : List Access :=
  match i.mnemonic, resolve i s with
  | .asl, some r => [.write r.ea (shiftLeft (s.operandAt r)).result]
  | _, _ => []

/-- All accesses of the instruction `i` executed at `s`, its opcode fetch first (44_step.md R236). -/
def accessesOf (i : Instr) (s : State) : List Access :=
  .read s.pc :: (operandFetches i.mode s ++ pointerFetches i s ++ operandRead i s ++ writeBack i s)

/-- All accesses of the step from `s`: an unsupported opcode is read and nothing else (44_step.md R233, R236). -/
def stepAccesses (s : State) : List Access :=
  match fetchInstr s with
  | some i => accessesOf i s
  | none => [.read s.pc]

/-- Memory after the writes of a list of accesses, in order (20_memory.md R53, R60). -/
def applyWrites : List Access → Memory → Memory
  | [], m => m
  | .read _ :: rest, m => applyWrites rest m
  | .write addr v :: rest, m => applyWrites rest (m.write addr v)

end Sys2Proof.Machine
end

