-- ==== Sys2Proof/Machine/Cycles.lean ====
section
/-! DEFINITION. The cycle count a step returns (44_step.md R240 to R244): an output only, a function of the instruction and of the state before the step; no state
holds it (10_state.md R40). DESIGN CHOICE (log 12, safe): beside `step`, whose type has no place for it.
UNVERIFIED (log 13, unsafe): figures and bonuses by decisions D7, D8, D13 and D23. -/

namespace Sys2Proof.Machine

/-- Base cycles by form (44_step.md R242). -/
def baseCycles : Instr → Nat
  | .adcImm _ => 2
  | .adcZp _ => 3
  | .adcZpX _ => 4
  | .adcAbs _ => 4
  | .adcAbsX _ => 4
  | .adcAbsY _ => 4
  | .adcIndX _ => 6
  | .adcIndY _ => 5
  | .andImm _ => 2
  | .andZp _ => 3
  | .andZpX _ => 4
  | .andAbs _ => 4
  | .andAbsX _ => 4
  | .andAbsY _ => 4
  | .andIndX _ => 6
  | .andIndY _ => 5
  | .aslAcc => 2
  | .aslZp _ => 5
  | .aslZpX _ => 6
  | .aslAbs _ => 6
  | .aslAbsX _ => 7
  | .bitZp _ => 3
  | .bitAbs _ => 4
  | .bpl _ => 2
  | .bmi _ => 2
  | .bcc _ => 2
  | .bcs _ => 2
  | .bne _ => 2
  | .beq _ => 2

/-- The six forms that add one cycle on a page cross; ASL Absolute,X is not one (44_step.md R241). -/
def takesPageCrossBonus (i : Instr) : Bool :=
  (i.mnemonic == .adc || i.mnemonic == .and) && (i.mode == .absoluteX || i.mode == .absoluteY || i.mode == .zeroPageIndirectY)

/-- `page_cross` as the resolver reports it, false where there is no effective address (40_addressing.md R122). -/
def pageCrossOf (i : Instr) (s : State) : Bool :=
  match resolve i s with
  | some r => r.pageCross
  | none => false

/-- A taken branch crosses a page when the target's high byte differs from the next sequential instruction's (43_branches.md R204). -/
def branchCross (rel : Byte) (s : State) : Bool := hiByte (branchTarget rel s) != hiByte (branchNext s)

/-- Branch cycles: 2, plus 1 when taken, plus 1 more when the taken branch crosses a page (43_branches.md R203). -/
def branchCycles (cond : Bool) (rel : Byte) (s : State) : Nat :=
  if cond then 2 + 1 + (if branchCross rel s then 1 else 0) else 2

/-- The cycle count of an executed instruction, from the state before it (44_step.md R232, R240). -/
def cyclesOf (i : Instr) (s : State) : Nat :=
  match branchOf i s with
  | some (cond, rel) => branchCycles cond rel s
  | none => baseCycles i + (if takesPageCrossBonus i && pageCrossOf i s then 1 else 0)

/-- The cycle count the step from `s` returns, none for an unsupported opcode (44_step.md R244). -/
def stepCycles (s : State) : Option Nat := (fetchInstr s).map (fun i => cyclesOf i s)

end Sys2Proof.Machine
end

