-- ==== Sys2Proof/Machine/Report.lean ====
section
/-! DEFINITION. `Step` with its whole outcome (44_step.md R230): the System State afterwards and what is returned to the host. -/

namespace Sys2Proof.Machine

/-- What a step returns: `Executed(.., cycles)` or `Unsupported(opcode)` (44_step.md R230). -/
inductive StepOutput where
  | executed (cycles : Nat)
  | unsupported (opcode : Byte)
  deriving DecidableEq, Repr

/-- The System State a step leaves and what it returned. -/
structure StepReport where
  state : State
  output : StepOutput
  deriving DecidableEq, Repr

/-- The whole outcome of `Step`, as the host sees it: the new state with its cycle count, or the state unchanged with the opcode byte (44_step.md R230, 60_exceptions.md R261).
UNVERIFIED (log 14, unsafe): that the state is unchanged is decision D6. A refusal, which no arm of `exec` gives, would be reported as unsupported. -/
def stepReport (s : State) : StepReport :=
  match fetchInstr s with
  | none => ⟨s, .unsupported (fetchOpcode s)⟩
  | some i =>
    match exec i s with
    | .next t => ⟨t, .executed (cyclesOf i s)⟩
    | .fault (.unsupportedInstruction op) => ⟨s, .unsupported op⟩
    | .refused _ => ⟨s, .unsupported (fetchOpcode s)⟩

end Sys2Proof.Machine
end

