-- ==== Sys2Proof/Machine/Transactions.lean ====
section
/-! DEFINITION. The block's interface to the host (00_scope.md R15, R17): Reset, Step and the host's writes between steps. The memory port is `State.readByte` and `State.writeByte`; the host's
reads are the fields of State. UNVERIFIED (log 16, unsafe): decisions D11 and D16. -/

namespace Sys2Proof.Machine

/-- One write of the host: any register, flag, PC or memory byte (00_scope.md R15, 70_reset_and_hazards.md R293). -/
inductive HostWrite where
  | a (v : Byte)
  | x (v : Byte)
  | y (v : Byte)
  | pc (v : Addr)
  | flagN (b : Bool)
  | flagV (b : Bool)
  | flagD (b : Bool)
  | flagZ (b : Bool)
  | flagC (b : Bool)
  | flagI (b : Bool)
  | memory (addr : Addr) (v : Byte)
  deriving DecidableEq, Repr

/-- The state after a write of the host. -/
def hostWrite : HostWrite → State → State
  | .a v, s => s.setA v
  | .x v, s => s.setX v
  | .y v, s => s.setY v
  | .pc v, s => s.setPC v
  | .flagN b, s => s.setN b
  | .flagV b, s => s.setV b
  | .flagD b, s => s.setD b
  | .flagZ b, s => s.setZ b
  | .flagC b, s => s.setC b
  | .flagI b, s => s.setI b
  | .memory addr v, s => s.writeByte addr v

/-- A transaction the host may request; none can happen during another (44_step.md R235). -/
inductive Transaction where
  /-- `Reset`, at any time between steps (70_reset_and_hazards.md R292). -/
  | reset
  /-- `Step` (44_step.md R230). -/
  | step
  /-- A write of the host (70_reset_and_hazards.md R293). -/
  | write (w : HostWrite)
  deriving DecidableEq, Repr

/-- The state after a transaction and what it returned to the host: only Step returns anything (00_scope.md R17). -/
def transact : Transaction → State → State × Option StepOutput
  | .reset, _ => (State.reset, none)
  | .step, s => ((stepReport s).state, some (stepReport s).output)
  | .write w, s => (hostWrite w s, none)

/-- The state after a list of transactions, the first first. -/
def transactAll : List Transaction → State → State
  | [], s => s
  | t :: rest, s => transactAll rest (transact t s).1

end Sys2Proof.Machine
end

