-- ==== Sys2Proof/Safety.lean ====
section
/-! DEFINITION. What counts as a safe run, and the terms in which claims speak of states. -/

namespace Sys2Proof

/-- An opcode byte with a dispatch entry (30_encoding.md R90, R93). -/
def Supported (op : Byte) : Bool := (dispatch op).isSome

/-- A byte of two decimal digits: both nibbles 0 to 9 (41_adc.md R147, R148). -/
def IsBcd (v : Byte) : Prop := v.toNat % 16 ≤ 9 ∧ v.toNat / 16 ≤ 9

/-- The number two decimal digits stand for. -/
def bcdValue (v : Byte) : Nat := v.toNat / 16 * 10 + v.toNat % 16

namespace Machine

/-- The model's invariant: memory is in its canonical form (log 1). -/
def State.Inv (s : State) : Prop := s.mem.wf = true

/-- A step from `s` executes an instruction. -/
def StepsSafely (s : State) : Prop := ∃ t, step s = .next t

/-- `n` steps from `s` all execute. -/
def RunsSafely (n : Nat) (s : State) : Prop := ∃ t, core.run n s = .next t

/-- The instruction bytes of `i` stand in memory from `addr` up, modulo 65,536 (30_encoding.md R80). -/
def HoldsBytes : List Byte → Addr → State → Prop
  | [], _, _ => True
  | b :: rest, addr, s => s.readByte addr = b ∧ HoldsBytes rest (addr + 1#16) s

/-- Equal in every register, PC and flag; memory may differ. -/
def SameRegisters (s t : State) : Prop :=
  s.a = t.a ∧ s.x = t.x ∧ s.y = t.y ∧ s.pc = t.pc ∧ s.flagN = t.flagN ∧ s.flagV = t.flagV ∧ s.flagD = t.flagD ∧
    s.flagZ = t.flagZ ∧ s.flagC = t.flagC ∧ s.flagI = t.flagI

/-- An access that writes to `addr`. -/
def Access.stores (addr : Addr) : Access → Bool
  | .read _ => false
  | .write k _ => k == addr

/-- A transaction that may change the byte at `addr`: Reset, a host write to it, or a step that stores to it (44_step.md R236). -/
def Transaction.stores (addr : Addr) : Transaction → State → Bool
  | .reset, _ => true
  | .write (.memory k _), _ => k == addr
  | .write _, _ => false
  | .step, s => (stepAccesses s).any (Access.stores addr)

/-- No transaction of the list, run from `s` on, stores to `addr`. -/
def leavesAlone (addr : Addr) : List Transaction → State → Bool
  | [], _ => true
  | t :: rest, s => !t.stores addr s && leavesAlone addr rest (transact t s).1

/-- Where the next step reads `addr` as a byte of its instruction, opcode or operand, it gets `v` (20_memory.md R56). -/
def FetchGives (addr : Addr) (v : Byte) (s : State) : Prop :=
  (s.pc = addr → fetchOpcode s = v) ∧ (s.pc + 1#16 = addr → fetchB1 s = v) ∧ (s.pc + 2#16 = addr → fetchB2 s = v)

/-- Every byte of memory reads the same. -/
def SameMemory (s t : State) : Prop := ∀ addr : Addr, s.readByte addr = t.readByte addr

end Machine

end Sys2Proof
end

