-- ==== Sys2Proof/Certificates/Slice0/Obligations.lean ====
section
/-! DEFINITION. The statements for the provers, from the numbered rules of spec/. A statement resting on a decision of 92_eei_decisions.md, on a passage the spec marks as general
knowledge or derived, or on a convention of the model says so in its docstring and names the log row; its basis is 'derived'. -/

open Sys2Proof Sys2Proof.Machine

/-! ## Encoding and dispatch -/

/-- 30_encoding.md R80 to R84, R90: words written bit by bit from the table give the instructions they stand for, one of each family and format, and two bytes that are rejected. The opcode bytes
are the spec's decision D12 (log 9). -/
def Obligations.SampleWordsDecodeToTheirInstructions : Prop :=
  decode [0b01101001#8, 0x10#8] = .instr (.adcImm 0x10#8) [] ∧
  decode [0b01111101#8, 0x34#8, 0x12#8] = .instr (.adcAbsX 0x1234#16) [] ∧
  decode [0b00110001#8, 0x20#8, 0xEE#8] = .instr (.andIndY 0x20#8) [0xEE#8] ∧
  decode [0b00001010#8] = .instr .aslAcc [] ∧
  decode [0b00101100#8, 0x34#8, 0x12#8] = .instr (.bitAbs 0x1234#16) [] ∧
  decode [0b11010000#8, 0xFE#8] = .instr (.bne 0xFE#8) [] ∧
  decode [0b00000000#8, 0x00#8] = .unsupported 0x00#8 ∧
  decode [0b11101010#8] = .unsupported 0xEA#8

/-- No bit of an encoding is dropped: for every well-formed instruction, with every operand, decoding its bytes gives it back and leaves the bytes after it (30_encoding.md R80 to R90). -/
def Obligations.DecodeOfEncodeGivesTheInstructionBack : Prop :=
  ∀ (i : Instr) (rest : List Byte), i.wellFormed = true → decode (encode i ++ rest) = .instr i rest

/-- Each byte sequence has one meaning: what decodes is the encoding of the instruction it decodes to (30_encoding.md R80 to R90). -/
def Obligations.DecodedBytesAreTheEncoding : Prop :=
  ∀ (bytes rest : List Byte) (i : Instr), decode bytes = .instr i rest → bytes = encode i ++ rest ∧ i.wellFormed = true

/-- 30_encoding.md R80, R85: the opcode byte alone decides mnemonic, mode and length; operand bytes never do, and never make an opcode unsupported. -/
def Obligations.OpcodeByteAloneDecidesTheForm : Prop :=
  ∀ op b1 b2 b1' b2' : Byte,
    (decodeInstr op b1 b2).map (fun i => (i.mnemonic, i.mode, i.length)) =
      (decodeInstr op b1' b2').map (fun i => (i.mnemonic, i.mode, i.length))

/-- 30_encoding.md R87, R90, R93: 29 opcode bytes have an entry, one for each pair the core has, and the other 227 have none. The bytes are the spec's decision D12 (log 9). -/
def Obligations.TwentyNineOpcodesAnd227Unsupported : Prop :=
  ((List.range 256).filter (fun n => Supported (BitVec.ofNat 8 n))).length = 29 ∧
  ((List.range 256).filter (fun n => !Supported (BitVec.ofNat 8 n))).length = 227 ∧
  ∀ mn md, validPair mn md = true →
    ((List.range 256).filter (fun n => dispatch (BitVec.ofNat 8 n) == some (mn, md))).length = 1

/-- 30_encoding.md R88: the table holds only valid pairs, each of which gives an instruction, and the only way to reach the fault is an opcode byte outside the table. -/
def Obligations.OnlyOpcodesOutsideTheTableFault : Prop :=
  (∀ op mn md, dispatch op = some (mn, md) → validPair mn md = true ∧ ∀ b1 b2, ∃ i, assemble mn md b1 b2 = some i) ∧
  ∀ (s : State) (f : Fault), step s = .fault f → dispatch (s.readByte s.pc) = none

/-! ## Reset and memory -/

/-- 10_state.md R41: every register, flag and memory byte is zero after reset. -/
def Obligations.ResetIsAllZero : Prop :=
  State.reset.a = 0x00#8 ∧ State.reset.x = 0x00#8 ∧ State.reset.y = 0x00#8 ∧ State.reset.pc = 0x0000#16 ∧
  State.reset.pch = 0x00#8 ∧ State.reset.pcl = 0x00#8 ∧
  State.reset.flagN = false ∧ State.reset.flagV = false ∧ State.reset.flagD = false ∧ State.reset.flagZ = false ∧
  State.reset.flagC = false ∧ State.reset.flagI = false ∧ ∀ addr : Addr, State.reset.readByte addr = 0x00#8

/-- The memory of the reset state has the model's canonical form (log 1: the model's choice, no rule of the spec). -/
def Obligations.ResetMemoryIsCanonical : Prop := State.reset.Inv

/-- The model's invariant: every step from a state with canonical memory leaves canonical memory (log 1: the form is the model's choice). -/
def Obligations.StepKeepsCanonicalMemory : Prop :=
  ∀ s t : State, s.Inv → step s = .next t → t.Inv

/-- The model's invariant over everything the host may do: resets, steps, executed or not, and writes of any register, flag or byte, in any order (00_scope.md R15, R17; log 1, log 16). -/
def Obligations.TransactionsKeepCanonicalMemory : Prop :=
  ∀ (ts : List Transaction) (s : State), s.Inv → (transactAll ts s).Inv

/-- The canonical form is canonical: memories that read alike at every address are equal data (log 1: the form is the model's choice). -/
def Obligations.CanonicalMemoriesReadingAlikeAreEqual : Prop :=
  ∀ m m' : Memory, m.wf = true → m'.wf = true → (∀ addr : Addr, m.read addr = m'.read addr) → m = m'

/-- 20_memory.md R53: a write sets one byte and changes no other byte and no register, and ASL in its four memory modes is the only instruction that writes memory. -/
def Obligations.MemWriteStoresOneByteAndOnlyAslWrites : Prop :=
  (∀ (s : State) (addr : Addr) (v : Byte), s.Inv →
    (s.writeByte addr v).readByte addr = v ∧
    (∀ other : Addr, other ≠ addr → (s.writeByte addr v).readByte other = s.readByte other) ∧
    SameRegisters (s.writeByte addr v) s) ∧
  (∀ (i : Instr) (s t : State), exec i s = .next t → t.mem ≠ s.mem → i.mnemonic = .asl ∧ i.mode ≠ .accumulator)

/-- The byte the host wrote last at an address in a list of its writes, or `before` if none did. -/
def Sys2Proof.lastWritten (before : Byte) (addr : Addr) : List HostWrite → Byte
  | [] => before
  | .memory k v :: rest => lastWritten (if addr = k then v else before) addr rest
  | _ :: rest => lastWritten before addr rest

/-- 20_memory.md R52, for the host's writes after reset: a read gives the byte written last, or 0x00 where nothing wrote (log 16: the host's writes are decision D11). -/
def Obligations.MemReadGivesTheByteTheHostWroteLast : Prop :=
  ∀ (ws : List HostWrite) (addr : Addr),
    (transactAll (ws.map .write) State.reset).readByte addr = lastWritten 0x00#8 addr ws

/-! ## The resolver -/

/-- 40_addressing.md R114, R115 and the first place of R126: the zero-page modes stay inside the zero page and never report a page cross. -/
def Obligations.ZeroPageModesStayInTheZeroPage : Prop :=
  ∀ (zp : Byte) (s : State),
    (resolveZeroPage zp).ea.toNat = zp.toNat ∧ (resolveZeroPage zp).pageCross = false ∧
    (resolveZeroPageX zp s).ea.toNat = (zp.toNat + s.x.toNat) % 256 ∧ (resolveZeroPageX zp s).pageCross = false

/-- 40_addressing.md R118, R119, 20_memory.md R55: the pointer of the indirect modes is little-endian and its high byte comes from `(p + 1) mod 256`; (Zero Page),Y adds Y to it modulo
65,536 and crosses when the low-byte sum exceeds 0xFF (wrap at the top: decision D21, log 11). -/
def Obligations.IndirectModesReadAWrappedLittleEndianPointer : Prop :=
  ∀ (zp : Byte) (s : State) (lo hi lo' hi' : Byte),
    s.readByte (BitVec.ofNat 16 ((zp.toNat + s.x.toNat) % 256)) = lo →
    s.readByte (BitVec.ofNat 16 ((zp.toNat + s.x.toNat + 1) % 256)) = hi →
    s.readByte (BitVec.ofNat 16 zp.toNat) = lo' →
    s.readByte (BitVec.ofNat 16 ((zp.toNat + 1) % 256)) = hi' →
    (resolveIndirectX zp s).ea.toNat = hi.toNat * 256 + lo.toNat ∧ (resolveIndirectX zp s).pageCross = false ∧
    (resolveIndirectY zp s).ea.toNat = (hi'.toNat * 256 + lo'.toNat + s.y.toNat) % 65536 ∧
    ((resolveIndirectY zp s).pageCross = true ↔ lo'.toNat + s.y.toNat > 255)

/-- 40_addressing.md R113, R116, R117, R125: an absolute address is taken as it is, an indexed one is the sum modulo 65,536, and the page cross is the low-byte overflow, which is the same as a changed high
byte (derived in R116; wrap: decision D21, log 11). -/
def Obligations.AbsoluteModesAddTheIndexAndReportTheCross : Prop :=
  ∀ (addr : Addr) (s : State),
    resolveAbsolute addr = ⟨addr, false⟩ ∧
    (resolveAbsoluteX addr s).ea.toNat = (addr.toNat + s.x.toNat) % 65536 ∧
    ((resolveAbsoluteX addr s).pageCross = true ↔ addr.toNat % 256 + s.x.toNat > 255) ∧
    (resolveAbsoluteX addr s).pageCross = (hiByte (resolveAbsoluteX addr s).ea != hiByte addr) ∧
    (resolveAbsoluteY addr s).ea.toNat = (addr.toNat + s.y.toNat) % 65536 ∧
    ((resolveAbsoluteY addr s).pageCross = true ↔ addr.toNat % 256 + s.y.toNat > 255) ∧
    (resolveAbsoluteY addr s).pageCross = (hiByte (resolveAbsoluteY addr s).ea != hiByte addr)

/-- 40_addressing.md R112, R120, R123: the operand byte of every form of ADC, AND, ASL and BIT. -/
def Obligations.OperandByteOfEveryForm : Prop :=
  ∀ (s : State) (v : Byte) (addr : Addr),
    (∀ i ∈ [Instr.adcImm v, .andImm v], operand i s = some v) ∧
    operand .aslAcc s = some s.a ∧
    (∀ i ∈ [Instr.adcZp v, .andZp v, .aslZp v, .bitZp v], operand i s = some (s.readByte (resolveZeroPage v).ea)) ∧
    (∀ i ∈ [Instr.adcZpX v, .andZpX v, .aslZpX v], operand i s = some (s.readByte (resolveZeroPageX v s).ea)) ∧
    (∀ i ∈ [Instr.adcAbs addr, .andAbs addr, .aslAbs addr, .bitAbs addr], operand i s = some (s.readByte addr)) ∧
    (∀ i ∈ [Instr.adcAbsX addr, .andAbsX addr, .aslAbsX addr], operand i s = some (s.readByte (resolveAbsoluteX addr s).ea)) ∧
    (∀ i ∈ [Instr.adcAbsY addr, .andAbsY addr], operand i s = some (s.readByte (resolveAbsoluteY addr s).ea)) ∧
    (∀ i ∈ [Instr.adcIndX v, .andIndX v], operand i s = some (s.readByte (resolveIndirectX v s).ea)) ∧
    (∀ i ∈ [Instr.adcIndY v, .andIndY v], operand i s = some (s.readByte (resolveIndirectY v s).ea))

/-- 40_addressing.md R122: only Absolute,X, Absolute,Y and (Zero Page),Y can report a page cross. -/
def Obligations.OnlyThreeModesReportAPageCross : Prop :=
  ∀ (i : Instr) (s : State), pageCrossOf i s = true → i.mode = .absoluteX ∨ i.mode = .absoluteY ∨ i.mode = .zeroPageIndirectY

/-! ## ADC -/

/-- `BcdAdd` of 41_adc.md R140 on numbers below 256: result and carry out. -/
def Sys2Proof.bcdAddByTheRule (a b : Nat) : Nat × Bool :=
  let low := a % 16 + b % 16
  let high := a / 16 + b / 16 + (if low > 9 then 1 else 0)
  ((if high > 9 then high - 10 else high) % 16 * 16 + (if low > 9 then low - 10 else low) % 16, decide (high > 9))

/-- 41_adc.md R141, R143, R144 in binary mode, for all eight forms of ADC (adcImm, adcZp, adcZpX, adcAbs, adcAbsX, adcAbsY, adcIndX, adcIndY): the instruction completes, A gets the sum with
carry in modulo 256 and C its carry out. C as the carry of the whole addition is decision D4 (log 5). -/
def Obligations.AdcBinaryAddsWithCarry : Prop :=
  ∀ (i : Instr) (s : State) (m : Byte), i.mnemonic = .adc → operand i s = some m → s.flagD = false →
    ∃ t, exec i s = .next t ∧
      t.a.toNat = (s.a.toNat + m.toNat + s.flagC.toNat) % 256 ∧
      (t.flagC = true ↔ s.a.toNat + m.toNat + s.flagC.toNat ≥ 256)

/-- 41_adc.md R145 in binary mode: V says whether the signed sum leaves -128..127. The overflow rule is decision D1 (log 4). -/
def Obligations.AdcBinaryOverflowIsSignedOverflow : Prop :=
  ∀ (i : Instr) (s : State) (m : Byte), i.mnemonic = .adc → operand i s = some m → s.flagD = false →
    ∃ t, exec i s = .next t ∧
      (t.flagV = true ↔ s.a.toInt + m.toInt + s.flagC.toNat < -128 ∨ s.a.toInt + m.toInt + s.flagC.toNat > 127)

/-- 41_adc.md R140, R141, R148 in decimal mode, for all eight forms of ADC and every operand, decimal or not: the instruction completes with the operand pass and then the carry-in pass of `BcdAdd`, and C is the OR of
both carries. Decisions D4 and D5 (log 5, log 6). -/
def Obligations.AdcDecimalMakesTwoBcdPasses : Prop :=
  ∀ (i : Instr) (s : State) (m : Byte), i.mnemonic = .adc → operand i s = some m → s.flagD = true →
    let first := bcdAddByTheRule s.a.toNat m.toNat
    let second := bcdAddByTheRule first.1 s.flagC.toNat
    ∃ t, exec i s = .next t ∧ t.a.toNat = second.1 ∧ t.flagC = (first.2 || second.2)

/-- 41_adc.md R147 (derived there; log 5): on decimal operands a decimal ADC is addition modulo 100 with its carry, and its result is decimal again. -/
def Obligations.AdcDecimalAddsModuloHundred : Prop :=
  ∀ (i : Instr) (s : State) (m : Byte), i.mnemonic = .adc → operand i s = some m → s.flagD = true → IsBcd s.a → IsBcd m →
    ∃ t, exec i s = .next t ∧ IsBcd t.a ∧
      bcdValue t.a = (bcdValue s.a + bcdValue m + s.flagC.toNat) % 100 ∧
      (t.flagC = true ↔ bcdValue s.a + bcdValue m + s.flagC.toNat ≥ 100)

/-- 41_adc.md R145, R146, for all eight forms in both modes: N and Z from the byte in A, V from the signs of the operands and that byte, PC past the instruction, and nothing else changed. V is decisions D1 and
D2 (log 4), N and Z in decimal mode D19 (log 7). -/
def Obligations.AdcFlagsComeFromTheResultAndTheRestIsKept : Prop :=
  ∀ (i : Instr) (s : State) (m : Byte), i.mnemonic = .adc → operand i s = some m →
    ∃ t, exec i s = .next t ∧
      (t.flagN = true ↔ t.a.toNat ≥ 128) ∧ (t.flagZ = true ↔ t.a.toNat = 0) ∧
      (t.flagV = true ↔ (s.a.toNat ≥ 128 ↔ m.toNat ≥ 128) ∧ ¬(t.a.toNat ≥ 128 ↔ s.a.toNat ≥ 128)) ∧
      t.pc = s.pc + BitVec.ofNat 16 i.length ∧
      t.x = s.x ∧ t.y = s.y ∧ t.flagD = s.flagD ∧ t.flagI = s.flagI ∧ t.mem = s.mem

/-- 41_adc.md R142: D selects decimal addition when 1 and binary addition when 0, and ADC never changes D. -/
def Obligations.DecimalFlagSelectsTheAddition : Prop :=
  ∀ (i : Instr) (s : State) (m : Byte), i.mnemonic = .adc → operand i s = some m →
    ∃ t, exec i s = .next t ∧ t.flagD = s.flagD ∧
      (s.flagD = true → t.a = (twoStage bcdAdd s.a m s.flagC).result) ∧
      (s.flagD = false → t.a = (twoStage binaryAdd s.a m s.flagC).result)

/-- 41_adc.md R140, R148 and 95_test_vectors.md S1, T2: the worked cases of `BcdAdd`, decimal and not (decision D5 for the last three, log 6). -/
def Obligations.BcdAddWorkedCases : Prop :=
  bcdAdd 0x99#8 0x99#8 = ⟨0x98#8, true⟩ ∧ bcdAdd 0x05#8 0x05#8 = ⟨0x10#8, false⟩ ∧ bcdAdd 0x50#8 0x49#8 = ⟨0x99#8, false⟩ ∧
  bcdAdd 0x0F#8 0x0F#8 = ⟨0x14#8, false⟩ ∧ bcdAdd 0xFF#8 0xFF#8 = ⟨0x54#8, true⟩ ∧ bcdAdd 0x0A#8 0x00#8 = ⟨0x10#8, false⟩

/-! ## AND, ASL, BIT -/

/-- 42_and_asl_bit.md R170, for all eight forms of AND (andImm, andZp, andZpX, andAbs, andAbsX, andAbsY, andIndX, andIndY): the instruction completes; A is masked bit by bit, N and Z come from the result, V, C, D, I, X, Y and
memory are kept, and the three crossing modes add one cycle on a page cross. -/
def Obligations.AndMasksTheAccumulator : Prop :=
  ∀ (i : Instr) (s : State) (m : Byte), i.mnemonic = .and → operand i s = some m →
    (∃ t, exec i s = .next t ∧
      (∀ k, k < 8 → t.a.getLsbD k = (s.a.getLsbD k && m.getLsbD k)) ∧
      t.flagN = t.a.getLsbD 7 ∧ (t.flagZ = true ↔ t.a.toNat = 0) ∧
      t = { s with a := t.a, flagN := t.flagN, flagZ := t.flagZ, pc := s.pc + BitVec.ofNat 16 i.length }) ∧
    cyclesOf i s = baseCycles i +
      (if i.mode ∈ [Mode.absoluteX, .absoluteY, .zeroPageIndirectY] ∧ pageCrossOf i s = true then 1 else 0)

/-- 42_and_asl_bit.md R180 to R182, R183, for aslAcc: the instruction completes; A is doubled modulo 256, C is the bit shifted out, N and Z come from the 8-bit result, and the rest is kept. C is decision D3 (log
8). -/
def Obligations.AslAccumulatorShiftsA : Prop :=
  ∀ s : State, ∃ t, exec .aslAcc s = .next t ∧
    t.a.toNat = 2 * s.a.toNat % 256 ∧ (t.flagC = true ↔ s.a.toNat ≥ 128) ∧
    (t.flagN = true ↔ s.a.toNat % 128 ≥ 64) ∧ (t.flagZ = true ↔ s.a.toNat % 128 = 0) ∧
    t = { s with a := t.a, flagN := t.flagN, flagZ := t.flagZ, flagC := t.flagC, pc := s.pc + 1#16 }

/-- 42_and_asl_bit.md R180 to R182, R184 to R187, for aslZp, aslZpX, aslAbs and aslAbsX: the instruction completes; the byte at the effective address is doubled in place, every other byte of memory is kept, the flags are as for
the accumulator, and A, X, Y, V, D and I are kept. C is decision D3 (log 8). -/
def Obligations.AslMemoryShiftsInPlace : Prop :=
  ∀ (i : Instr) (s : State) (r : Resolved), s.Inv → i.mnemonic = .asl → resolve i s = some r →
    ∃ t, exec i s = .next t ∧
      (t.readByte r.ea).toNat = 2 * (s.readByte r.ea).toNat % 256 ∧
      (∀ addr : Addr, addr ≠ r.ea → t.readByte addr = s.readByte addr) ∧
      (t.flagC = true ↔ (s.readByte r.ea).toNat ≥ 128) ∧
      (t.flagN = true ↔ (s.readByte r.ea).toNat % 128 ≥ 64) ∧ (t.flagZ = true ↔ (s.readByte r.ea).toNat % 128 = 0) ∧
      t = { s with flagN := t.flagN, flagZ := t.flagZ, flagC := t.flagC, mem := t.mem, pc := s.pc + BitVec.ofNat 16 i.length }

/-- 42_and_asl_bit.md R188, R189, for bitZp and bitAbs: the instruction completes; N and V are bits 7 and 6 of the operand, Z says whether `A & M` is zero, only N, V, Z and PC change, BIT has no immediate or indexed form, and no page-cross
cycle applies. -/
def Obligations.BitTestsTheOperandAndKeepsA : Prop :=
  ∀ (i : Instr) (s : State) (m : Byte), i.mnemonic = .bit → operand i s = some m →
    ∃ t, exec i s = .next t ∧
      t.flagN = m.getLsbD 7 ∧ t.flagV = m.getLsbD 6 ∧
      (t.flagZ = true ↔ ∀ k, k < 8 → ¬(s.a.getLsbD k = true ∧ m.getLsbD k = true)) ∧
      t = { s with flagN := t.flagN, flagV := t.flagV, flagZ := t.flagZ, pc := s.pc + BitVec.ofNat 16 i.length } ∧
      (i.mode = .zeroPage ∨ i.mode = .absolute) ∧ cyclesOf i s = baseCycles i

/-! ## Branches -/

/-- What a branch on a condition leaves: PC at `pc0 + 2 + disp` modulo 65,536 when taken, at `pc0 + 2` when not, all else as before. -/
def Sys2Proof.BranchesOn (cond : Bool) (rel : Byte) (s t : State) : Prop :=
  (t.pc.toNat : Int) = (if cond then (s.pc.toNat : Int) + 2 + rel.toInt else (s.pc.toNat : Int) + 2) % 65536 ∧ t = { s with pc := t.pc }

/-- 43_branches.md R200 to R202, R205, R206: the six branches complete and go where the flag they test says. Flag and value of each are decision D15 (log 10). -/
def Obligations.BranchesGoWhereTheFlagSays : Prop :=
  ∀ (rel : Byte) (s : State),
    (∃ t, exec (.bpl rel) s = .next t ∧ BranchesOn (!s.flagN) rel s t) ∧
    (∃ t, exec (.bmi rel) s = .next t ∧ BranchesOn s.flagN rel s t) ∧
    (∃ t, exec (.bcc rel) s = .next t ∧ BranchesOn (!s.flagC) rel s t) ∧
    (∃ t, exec (.bcs rel) s = .next t ∧ BranchesOn s.flagC rel s t) ∧
    (∃ t, exec (.bne rel) s = .next t ∧ BranchesOn (!s.flagZ) rel s t) ∧
    (∃ t, exec (.beq rel) s = .next t ∧ BranchesOn s.flagZ rel s t)

/-- 43_branches.md R208: a branch, taken or not, changes nothing but PC; the flags it may test are as before, for the next branch to see. -/
def Obligations.BranchesChangeNothingButPc : Prop :=
  ∀ (i : Instr) (s t : State), i.mode = .relative → exec i s = .next t →
    t.a = s.a ∧ t.x = s.x ∧ t.y = s.y ∧ t.flagN = s.flagN ∧ t.flagV = s.flagV ∧ t.flagD = s.flagD ∧ t.flagZ = s.flagZ ∧
      t.flagC = s.flagC ∧ t.flagI = s.flagI ∧ ∀ addr : Addr, t.readByte addr = s.readByte addr

/-- 43_branches.md R205: a branch not taken advances PC by exactly two and costs two cycles, whatever its displacement. -/
def Obligations.NotTakenBranchAdvancesByTwo : Prop :=
  ∀ (i : Instr) (rel : Byte) (s : State), branchOf i s = some (false, rel) →
    exec i s = .next (s.setPC (s.pc + 2#16)) ∧ cyclesOf i s = 2

/-- 43_branches.md R203, R204: a taken branch costs 3 cycles, or 4 when its target is on another page than the next sequential instruction. The reference point is decision D7 (log 13). -/
def Obligations.TakenBranchCostsThreeOrFour : Prop :=
  ∀ (i : Instr) (rel : Byte) (s t : State), branchOf i s = some (true, rel) → exec i s = .next t →
    cyclesOf i s = if t.pc.toNat / 256 = (s.pc.toNat + 2) % 65536 / 256 then 3 else 4

/-! ## The step -/

/-- 44_step.md R231, R232: where the bytes at PC decode to an instruction, the step is that instruction's execution; PC still holds the opcode's address when it runs. -/
def Obligations.StepRunsTheDecodedInstruction : Prop :=
  ∀ (s : State) (i : Instr) (rest : List Byte),
    decode [s.readByte s.pc, s.readByte (s.pc + 1#16), s.readByte (s.pc + 2#16)] = .instr i rest → step s = exec i s

/-- 44_step.md R231, R232, 30_encoding.md R80: where memory holds the encoding of an instruction from PC up, modulo 65,536, the step is that instruction's execution, whatever follows it (wrap: decisions D17 and D20,
log 11). -/
def Obligations.StepRunsTheEncodedInstruction : Prop :=
  ∀ (s : State) (i : Instr), HoldsBytes (encode i) s.pc s → step s = exec i s

/-- 60_exceptions.md R263: there is no other exception; every step executes, or its opcode byte has no entry and it raises UnsupportedInstruction with that byte. -/
def Obligations.NoOtherExceptionExists : Prop :=
  ∀ s : State,
    (Supported (s.readByte s.pc) = true ∧ ∃ t, step s = .next t) ∨
    (Supported (s.readByte s.pc) = false ∧ step s = .fault (.unsupportedInstruction (s.readByte s.pc)))

/-- 44_step.md R239: the final PC of every step. The last row is 60_exceptions.md R261, decision D6 (log 14). The wrap is decision D17 (log 11). -/
def Obligations.FinalPcOfEveryStep : Prop :=
  ∀ s : State,
    (∀ i, fetchInstr s = some i →
      (i = .aslAcc → (stepReport s).state.pc = s.pc + 1#16) ∧
      (i.length = 2 → i.mode ≠ .relative → (stepReport s).state.pc = s.pc + 2#16) ∧
      (i.length = 3 → (stepReport s).state.pc = s.pc + 3#16) ∧
      (∀ rel, branchOf i s = some (false, rel) → (stepReport s).state.pc = s.pc + 2#16) ∧
      (∀ rel, branchOf i s = some (true, rel) → (stepReport s).state.pc = s.pc + 2#16 + rel.signExtend 16)) ∧
    (fetchInstr s = none → (stepReport s).state.pc = s.pc)

/-- 44_step.md R237: an advance carries from the low byte of PC into the high byte, modulo 65,536. -/
def Obligations.AdvanceCarriesFromPclIntoPch : Prop :=
  ∀ (s : State) (len : Nat), len ≤ 3 →
    (s.advance len).pcl.toNat = (s.pcl.toNat + len) % 256 ∧
    (s.advance len).pch.toNat = (s.pch.toNat + (s.pcl.toNat + len) / 256) % 256

/-- 60_exceptions.md R261, R267, R268: a step that raises the exception changes nothing and reports the opcode byte without a cycle count, and stepping again gives the same. That nothing changes is decision D6 (log 14). -/
def Obligations.UnsupportedStepChangesNothingAndRecurs : Prop :=
  ∀ s : State, Supported (s.readByte s.pc) = false →
    transact .step s = (s, some (.unsupported (s.readByte s.pc))) ∧
    transact .step (transact .step s).1 = (s, some (.unsupported (s.readByte s.pc))) ∧ stepCycles s = none

/-- 30_encoding.md R94 (derived there): stepping the freshly reset core faults at once with opcode 0x00. -/
def Obligations.StepFromResetFaultsOnZero : Prop := step State.reset = .fault (.unsupportedInstruction 0x00#8)

/-- 44_step.md R230: the whole outcome of Step and the outcome of `step` agree (that the cycle count stands beside `step` is the model's choice, log 12). -/
def Obligations.StepReportAgreesWithStep : Prop :=
  ∀ s t : State, step s = .next t ↔ ∃ n, stepReport s = ⟨t, .executed n⟩ ∧ stepCycles s = some n

/-- 10_state.md R37: the flags each instruction never writes keep their values; the flags it writes do not depend on any flag it does not read (ADC reads C and D, the others none); a branch reads one flag; and a step that faults
writes none. The carry of ASL is decision D3 (log 8), the six cells are D10 (log 2), the flag of each branch is D15 (log 10). The last clause also says that a faulting step leaves A, X, Y and PC, as 60_exceptions.md R261 has
it, which is decision D6 (log 14). -/
def Obligations.FlagEffectsOfEveryInstruction : Prop :=
  (∀ (i : Instr) (s t : State), exec i s = .next t →
    t.flagD = s.flagD ∧ t.flagI = s.flagI ∧
    (i.mnemonic = .and ∨ i.mnemonic = .asl → t.flagV = s.flagV) ∧
    (i.mnemonic = .and ∨ i.mnemonic = .bit → t.flagC = s.flagC) ∧
    (i.mode = .relative → t.flagN = s.flagN ∧ t.flagV = s.flagV ∧ t.flagZ = s.flagZ ∧ t.flagC = s.flagC)) ∧
  (∀ (i : Instr) (s s' t t' : State), exec i s = .next t → exec i s' = .next t' →
    s.a = s'.a → s.x = s'.x → s.y = s'.y → s.pc = s'.pc → s.mem = s'.mem →
    (i.mnemonic = .adc → s.flagC = s'.flagC → s.flagD = s'.flagD →
      t.flagN = t'.flagN ∧ t.flagV = t'.flagV ∧ t.flagZ = t'.flagZ ∧ t.flagC = t'.flagC) ∧
    (i.mnemonic = .and → t.flagN = t'.flagN ∧ t.flagZ = t'.flagZ) ∧
    (i.mnemonic = .asl → t.flagN = t'.flagN ∧ t.flagZ = t'.flagZ ∧ t.flagC = t'.flagC) ∧
    (i.mnemonic = .bit → t.flagN = t'.flagN ∧ t.flagV = t'.flagV ∧ t.flagZ = t'.flagZ) ∧
    (i.mnemonic = .bcc ∨ i.mnemonic = .bcs → s.flagC = s'.flagC → t.pc = t'.pc) ∧
    (i.mnemonic = .beq ∨ i.mnemonic = .bne → s.flagZ = s'.flagZ → t.pc = t'.pc) ∧
    (i.mnemonic = .bmi ∨ i.mnemonic = .bpl → s.flagN = s'.flagN → t.pc = t'.pc)) ∧
  (∀ (s : State) (f : Fault), step s = .fault f → SameRegisters (stepReport s).state s)

/-- 10_state.md R36: after every non-branch instruction N and Z are those of the value that defines them (the byte in A, the byte ASL wrote, for BIT the operand and `A & M`), in decimal mode too; the
branches write neither. -/
def Obligations.NegativeAndZeroReflectTheLastResult : Prop :=
  ∀ (i : Instr) (s t : State), s.Inv → exec i s = .next t →
    (i.mnemonic = .adc ∨ i.mnemonic = .and ∨ i = .aslAcc → (t.flagN = true ↔ t.a.toNat ≥ 128) ∧ (t.flagZ = true ↔ t.a.toNat = 0)) ∧
    (∀ r, i.mnemonic = .asl → resolve i s = some r →
      (t.flagN = true ↔ (t.readByte r.ea).toNat ≥ 128) ∧ (t.flagZ = true ↔ (t.readByte r.ea).toNat = 0)) ∧
    (∀ m, i.mnemonic = .bit → operand i s = some m →
      (t.flagN = true ↔ m.toNat ≥ 128) ∧ (t.flagZ = true ↔ (s.a &&& m).toNat = 0)) ∧
    (i.mode = .relative → t.flagN = s.flagN ∧ t.flagZ = s.flagZ)

/-- 10_state.md R22, R23, R34, R35 as 70_reset_and_hazards.md R296 gathers them (derived there): X, Y, D and I never change during a run, however long. -/
def Obligations.XYDecimalAndPlaceholderNeverChangeInARun : Prop :=
  ∀ (n : Nat) (s t : State), core.run n s = .next t →
    t.x = s.x ∧ t.y = s.y ∧ t.flagD = s.flagD ∧ t.flagI = s.flagI

/-! ## Cycles -/

/-- 44_step.md R244: an executed step reports 2 to 7 cycles and a step that raises the exception reports none (decision D23, log 13). -/
def Obligations.CyclesLieBetweenTwoAndSeven : Prop :=
  ∀ s : State, (∀ n, stepCycles s = some n → 2 ≤ n ∧ n ≤ 7) ∧ (stepCycles s = none ↔ Supported (s.readByte s.pc) = false)

/-- 44_step.md R241, R242: the cycles of every form that is no branch, the bonus spelled out from the low-byte sums. Figures the source does not state are decisions D8 and D13 (log 13). -/
def Obligations.CycleTableOfTheNonBranchForms : Prop :=
  ∀ (s : State) (v : Byte) (addr : Addr),
    let crossX := if addr.toNat % 256 + s.x.toNat > 255 then 1 else 0
    let crossY := if addr.toNat % 256 + s.y.toNat > 255 then 1 else 0
    let crossInd := if (s.readByte (v.setWidth 16)).toNat + s.y.toNat > 255 then 1 else 0
    (∀ i ∈ [Instr.adcImm v, .andImm v, .aslAcc], cyclesOf i s = 2) ∧
    (∀ i ∈ [Instr.adcZp v, .andZp v, .bitZp v], cyclesOf i s = 3) ∧
    (∀ i ∈ [Instr.adcZpX v, .andZpX v, .adcAbs addr, .andAbs addr, .bitAbs addr], cyclesOf i s = 4) ∧
    (∀ i ∈ [Instr.adcAbsX addr, .andAbsX addr], cyclesOf i s = 4 + crossX) ∧
    (∀ i ∈ [Instr.adcAbsY addr, .andAbsY addr], cyclesOf i s = 4 + crossY) ∧
    (∀ i ∈ [Instr.adcIndX v, .andIndX v], cyclesOf i s = 6) ∧
    (∀ i ∈ [Instr.adcIndY v, .andIndY v], cyclesOf i s = 5 + crossInd) ∧
    cyclesOf (.aslZp v) s = 5 ∧ cyclesOf (.aslZpX v) s = 6 ∧ cyclesOf (.aslAbs addr) s = 6 ∧ cyclesOf (.aslAbsX addr) s = 7

/-- 70_reset_and_hazards.md R300 (derived there), in three clauses. The cycles of a form that is no branch depend only on its opcode byte and, for the six forms of 44_step.md R241, on `page_cross`. Those of a branch
depend only on whether it is taken and whether its target is on another page than the next sequential instruction (43_branches.md R204). So of the state only X can matter to Absolute,X, only Y to Absolute,Y, only Y and
the low byte of the pointer to (Zero Page),Y, only PC, N, Z and C to a branch, and nothing to the rest; never the operand value, A, V, D or I. ASL Absolute,X is no such form by decision D8, the branch's reference point is D7
(log 13). -/
def Obligations.CyclesDoNotDependOnData : Prop :=
  (∀ (i j : Instr) (s t : State), i.mode ≠ .relative → opcodeOf i = opcodeOf j →
    (i.mnemonic ≠ .asl → i.mode ∈ [Mode.absoluteX, .absoluteY, .zeroPageIndirectY] → pageCrossOf i s = pageCrossOf j t) →
    cyclesOf i s = cyclesOf j t) ∧
  (∀ (i j : Instr) (s t : State) (taken : Bool) (rel rel' : Byte),
    branchOf i s = some (taken, rel) → branchOf j t = some (taken, rel') →
    (taken = true → ((s.pc + 2#16 + rel.signExtend 16).toNat / 256 = (s.pc + 2#16).toNat / 256 ↔
      (t.pc + 2#16 + rel'.signExtend 16).toNat / 256 = (t.pc + 2#16).toNat / 256)) →
    cyclesOf i s = cyclesOf j t) ∧
  (∀ (i : Instr) (s t : State),
    (i.mnemonic ≠ .asl → i.mode = .absoluteX → s.x = t.x) → (i.mode = .absoluteY ∨ i.mode = .zeroPageIndirectY → s.y = t.y) →
    (∀ zp, i = .adcIndY zp ∨ i = .andIndY zp → s.readByte (zp.setWidth 16) = t.readByte (zp.setWidth 16)) →
    (i.mode = .relative → s.pc = t.pc ∧ s.flagN = t.flagN ∧ s.flagZ = t.flagZ ∧ s.flagC = t.flagC) →
    cyclesOf i s = cyclesOf i t)

/-! ## Accesses -/

/-- 44_step.md R236: the accesses of every form in order. Order and number are decision D9 (log 15). -/
def Obligations.AccessesOfEveryFormInOrder : Prop :=
  ∀ (s : State) (v : Byte) (addr : Addr),
    let f0 := Access.read s.pc
    let f1 := Access.read (s.pc + 1#16)
    let f2 := Access.read (s.pc + 2#16)
    let zp := (resolveZeroPage v).ea
    let zpX := (resolveZeroPageX v s).ea
    let absX := (resolveAbsoluteX addr s).ea
    let absY := (resolveAbsoluteY addr s).ea
    let doubled := fun ea => s.readByte ea <<< 1
    (fetchInstr s = none → stepAccesses s = [f0]) ∧
    accessesOf .aslAcc s = [f0] ∧
    (∀ i ∈ [Instr.adcImm v, .andImm v, .bpl v, .bmi v, .bcc v, .bcs v, .bne v, .beq v], accessesOf i s = [f0, f1]) ∧
    (∀ i ∈ [Instr.adcZp v, .andZp v, .bitZp v], accessesOf i s = [f0, f1, .read zp]) ∧
    (∀ i ∈ [Instr.adcZpX v, .andZpX v], accessesOf i s = [f0, f1, .read zpX]) ∧
    (∀ i ∈ [Instr.adcAbs addr, .andAbs addr, .bitAbs addr], accessesOf i s = [f0, f1, f2, .read addr]) ∧
    (∀ i ∈ [Instr.adcAbsX addr, .andAbsX addr], accessesOf i s = [f0, f1, f2, .read absX]) ∧
    (∀ i ∈ [Instr.adcAbsY addr, .andAbsY addr], accessesOf i s = [f0, f1, f2, .read absY]) ∧
    (∀ i ∈ [Instr.adcIndX v, .andIndX v], accessesOf i s =
      [f0, f1, .read ((v + s.x).setWidth 16), .read ((v + s.x + 1#8).setWidth 16), .read (resolveIndirectX v s).ea]) ∧
    (∀ i ∈ [Instr.adcIndY v, .andIndY v], accessesOf i s =
      [f0, f1, .read (v.setWidth 16), .read ((v + 1#8).setWidth 16), .read (resolveIndirectY v s).ea]) ∧
    accessesOf (.aslZp v) s = [f0, f1, .read zp, .write zp (doubled zp)] ∧
    accessesOf (.aslZpX v) s = [f0, f1, .read zpX, .write zpX (doubled zpX)] ∧
    accessesOf (.aslAbs addr) s = [f0, f1, f2, .read addr, .write addr (doubled addr)] ∧
    accessesOf (.aslAbsX addr) s = [f0, f1, f2, .read absX, .write absX (doubled absX)]

/-- 20_memory.md R58, 44_step.md R236: every step makes one to five accesses (decision D9, log 15). -/
def Obligations.EveryStepMakesOneToFiveAccesses : Prop :=
  ∀ s : State, 1 ≤ (stepAccesses s).length ∧ (stepAccesses s).length ≤ 5

/-- 20_memory.md R51, R53, 44_step.md R236: the memory a step leaves is the memory before it with the writes of its access list applied, executed or not (decision D9, log 15). -/
def Obligations.MemoryAfterAStepIsItsWritesApplied : Prop :=
  ∀ s : State, (stepReport s).state.mem = applyWrites (stepAccesses s) s.mem

/-- 00_scope.md R11, 20_memory.md R51, 44_step.md R234, R236: what a step does depends on the registers and on the bytes its access list reads, on nothing else: two states alike in these give the same accesses, the same output and
cycle count, the same registers, and the same byte wherever they had the same byte (decision D9, log 15). -/
def Obligations.StepDependsOnlyOnTheBytesItReads : Prop :=
  ∀ s s' : State, s.Inv → s'.Inv → SameRegisters s s' →
    (∀ addr : Addr, Access.read addr ∈ stepAccesses s → s.readByte addr = s'.readByte addr) →
    stepAccesses s' = stepAccesses s ∧ (stepReport s').output = (stepReport s).output ∧
    SameRegisters (stepReport s).state (stepReport s').state ∧
    ∀ addr : Addr, s.readByte addr = s'.readByte addr → (stepReport s).state.readByte addr = (stepReport s').state.readByte addr

/-! ## The host -/

/-- 00_scope.md R15, 70_reset_and_hazards.md R293: each write of the host sets its target and changes nothing else (decision D11, log 16). -/
def Obligations.HostWriteChangesOnlyItsTarget : Prop :=
  ∀ (s : State) (v : Byte) (addr : Addr) (b : Bool), s.Inv →
    hostWrite (.a v) s = { s with a := v } ∧ hostWrite (.x v) s = { s with x := v } ∧ hostWrite (.y v) s = { s with y := v } ∧
    hostWrite (.pc addr) s = { s with pc := addr } ∧
    hostWrite (.flagN b) s = { s with flagN := b } ∧ hostWrite (.flagV b) s = { s with flagV := b } ∧
    hostWrite (.flagD b) s = { s with flagD := b } ∧ hostWrite (.flagZ b) s = { s with flagZ := b } ∧
    hostWrite (.flagC b) s = { s with flagC := b } ∧ hostWrite (.flagI b) s = { s with flagI := b } ∧
    SameRegisters (hostWrite (.memory addr v) s) s ∧ (hostWrite (.memory addr v) s).readByte addr = v ∧
    ∀ other : Addr, other ≠ addr → (hostWrite (.memory addr v) s).readByte other = s.readByte other

/-- 70_reset_and_hazards.md R290, R292: Reset gives the reset state whatever came before, and returns nothing (its form is decision D16, log 16). -/
def Obligations.ResetForgetsEverythingBefore : Prop :=
  ∀ (ts : List Transaction) (s : State), transactAll (ts ++ [.reset]) s = State.reset ∧ (transact .reset s).2 = none

/-- 20_memory.md R63 (derived there), in three clauses. A byte that the host stores, and a byte that a step's ASL doubles, is what a later step fetches from that address, as an opcode byte or as either operand byte, whatever
transactions come in between that do not store to that address. Within one step every fetch comes before the one possible write, which is the last access. Host writes are decision D11 (log 16), the order within a step is
decision D9 (log 15). -/
def Obligations.FetchSeesEveryEarlierStore : Prop :=
  (∀ (s : State) (addr : Addr) (v : Byte) (ts : List Transaction), s.Inv →
    leavesAlone addr ts (transact (.write (.memory addr v)) s).1 = true →
    FetchGives addr v (transactAll (.write (.memory addr v) :: ts) s)) ∧
  (∀ (s : State) (i : Instr) (r : Resolved) (ts : List Transaction), s.Inv →
    fetchInstr s = some i → i.mnemonic = .asl → resolve i s = some r →
    leavesAlone r.ea ts (transact .step s).1 = true →
    FetchGives r.ea (s.readByte r.ea <<< 1) (transactAll (.step :: ts) s)) ∧
  ∀ (s : State) (access : Access), access ∈ (stepAccesses s).dropLast → ∃ addr, access = .read addr

/-- 40_addressing.md R111: operand bytes of an instruction at the top of memory come from the bottom (decision D20, log 11). -/
def Obligations.OperandFetchWrapsAtTheTopOfMemory : Prop :=
  ∀ s : State,
    (s.pc = 0xFFFF#16 → fetchB1 s = s.readByte 0x0000#16 ∧ fetchB2 s = s.readByte 0x0001#16) ∧
    (s.pc = 0xFFFE#16 → fetchB1 s = s.readByte 0xFFFF#16 ∧ fetchB2 s = s.readByte 0x0000#16)
end

