-- ==== Sys2Proof/Laws/Word.lean ====
section
/-! SUPPORT. The word helpers as numbers: what `lo`, `hi`, `pair`, `zext16`, `sext16` and the nibbles are in Nat and Int arithmetic. -/

namespace Sys2Proof

theorem loByte_toNat (w : Addr) : (loByte w).toNat = w.toNat % 256 := by simp [loByte]

theorem hiByte_toNat (w : Addr) : (hiByte w).toNat = w.toNat / 256 := by
  have := w.isLt
  simp [hiByte, Nat.shiftRight_eq_div_pow]; omega

theorem pair_toNat (h l : Byte) : (pair h l).toNat = h.toNat * 256 + l.toNat := by
  have := l.isLt
  rw [pair, BitVec.toNat_append, ← Nat.shiftLeft_add_eq_or_of_lt (by omega)]
  simp [Nat.shiftLeft_eq]

@[simp] theorem pair_hiByte_loByte (w : Addr) : pair (hiByte w) (loByte w) = w := by
  apply BitVec.eq_of_toNat_eq
  rw [pair_toNat, hiByte_toNat, loByte_toNat]; omega

@[simp] theorem loByte_pair (h l : Byte) : loByte (pair h l) = l := by
  apply BitVec.eq_of_toNat_eq
  have := l.isLt
  rw [loByte_toNat, pair_toNat]; omega

@[simp] theorem hiByte_pair (h l : Byte) : hiByte (pair h l) = h := by
  apply BitVec.eq_of_toNat_eq
  have := l.isLt
  rw [hiByte_toNat, pair_toNat]; omega

namespace Machine

theorem zext16_toNat (b : Byte) : (zext16 b).toNat = b.toNat := by
  have := b.isLt
  simp [zext16]; omega

/-- The two readings of a displacement byte agree: `sext_16` is the signed value modulo 65,536 (00_scope.md R9, 43_branches.md R201). -/
theorem sext16_toNat (b : Byte) : ((sext16 b).toNat : Int) = b.toInt % 65536 := by
  have h : (sext16 b).toInt = b.toInt := by simp [sext16, BitVec.toInt_signExtend_of_le]
  rw [BitVec.toInt_eq_toNat_bmod] at h
  have := (sext16 b).isLt
  rw [Int.bmod_def] at h
  split at h <;> omega

theorem lowNibble_toNat (v : Byte) : (lowNibble v).toNat = v.toNat % 16 := by simp [lowNibble]

theorem highNibble_toNat (v : Byte) : (highNibble v).toNat = v.toNat / 16 := by
  have := v.isLt
  simp [highNibble, Nat.shiftRight_eq_div_pow]; omega

/-- Bit 7 of a byte as a number. -/
theorem getLsbD_seven (v : Byte) : v.getLsbD 7 = decide (128 ≤ v.toNat) := by
  have := v.isLt
  rw [← BitVec.testBit_toNat, Nat.testBit_eq_decide_div_mod_eq]
  simp; omega

end Machine

end Sys2Proof
end

