-- ==== Sys2Proof/Laws/Decode.lean ====
section
/-! SUPPORT. The dispatch table and the assembly of operands, inverted once. -/

namespace Sys2Proof

/-- A byte with an entry is the opcode byte of a row of the table. -/
theorem dispatch_some_mem {op : Byte} {mn : Mnemonic} {md : Mode} (h : dispatch op = some (mn, md)) :
    (⟨op, mn, md⟩ : OpcodeRow) ∈ opcodeTable := by
  unfold dispatch at h
  obtain ⟨row, hrow, heq⟩ := Option.map_eq_some_iff.1 h
  have h1 := List.mem_of_find?_eq_some hrow
  have h2 : row.opcode = op := by simpa using List.find?_some hrow
  cases heq
  exact h2 ▸ h1

/-- What a valid pair assembles to, and that its bytes give the operands back. -/
theorem assemble_spec {mn : Mnemonic} {md : Mode} {b1 b2 : Byte} {i : Instr} (h : assemble mn md b1 b2 = some i) :
    i.mnemonic = mn ∧ i.mode = md ∧ operandsOf i = [b1, b2].take md.operandBytes := by
  unfold assemble at h
  split at h <;> cases h <;> simp [Instr.mnemonic, Instr.mode, operandsOf, Mode.operandBytes]

/-- Every pair of the table assembles. -/
theorem assemble_of_dispatch {op : Byte} {mn : Mnemonic} {md : Mode} (h : dispatch op = some (mn, md)) (b1 b2 : Byte) :
    ∃ i, assemble mn md b1 b2 = some i ∧ opcodeOf i = op := by
  have hrows : ∀ row ∈ opcodeTable, ∃ i, assemble row.mnemonic row.mode b1 b2 = some i ∧ opcodeOf i = row.opcode := by
    simp [opcodeTable, adcRows, andRows, aslBitRows, branchRows, assemble, opcodeOf]
  exact hrows _ (dispatch_some_mem h)

/-- A form takes no operand byte beyond its length. -/
theorem assemble_congr {mn : Mnemonic} {md : Mode} {b1 b2 b1' b2' : Byte} (h1 : 1 ≤ md.operandBytes → b1 = b1')
    (h2 : 2 ≤ md.operandBytes → b2 = b2') : assemble mn md b1 b2 = assemble mn md b1' b2' := by
  cases mn <;> cases md <;> simp_all [Mode.operandBytes, assemble]

theorem dispatch_opcodeOf (i : Instr) : dispatch (opcodeOf i) = some (i.mnemonic, i.mode) := by
  cases i <;> rfl

end Sys2Proof
end

