-- ==== Sys2Proof/Laws/State.lean ====
section
/-! SUPPORT. One lemma per field per update of State, so that no later proof unfolds a record update. -/

namespace Sys2Proof.Machine.State

@[simp] theorem setA_a (s : State) (v : Byte) : (s.setA v).a = v := rfl
@[simp] theorem setA_x (s : State) (v : Byte) : (s.setA v).x = s.x := rfl
@[simp] theorem setA_y (s : State) (v : Byte) : (s.setA v).y = s.y := rfl
@[simp] theorem setA_pc (s : State) (v : Byte) : (s.setA v).pc = s.pc := rfl
@[simp] theorem setA_flagN (s : State) (v : Byte) : (s.setA v).flagN = s.flagN := rfl
@[simp] theorem setA_flagV (s : State) (v : Byte) : (s.setA v).flagV = s.flagV := rfl
@[simp] theorem setA_flagD (s : State) (v : Byte) : (s.setA v).flagD = s.flagD := rfl
@[simp] theorem setA_flagZ (s : State) (v : Byte) : (s.setA v).flagZ = s.flagZ := rfl
@[simp] theorem setA_flagC (s : State) (v : Byte) : (s.setA v).flagC = s.flagC := rfl
@[simp] theorem setA_flagI (s : State) (v : Byte) : (s.setA v).flagI = s.flagI := rfl
@[simp] theorem setA_mem (s : State) (v : Byte) : (s.setA v).mem = s.mem := rfl
@[simp] theorem setA_readByte (s : State) (v : Byte) (addr : Addr) : (s.setA v).readByte addr = s.readByte addr := rfl

@[simp] theorem setX_a (s : State) (v : Byte) : (s.setX v).a = s.a := rfl
@[simp] theorem setX_x (s : State) (v : Byte) : (s.setX v).x = v := rfl
@[simp] theorem setX_y (s : State) (v : Byte) : (s.setX v).y = s.y := rfl
@[simp] theorem setX_pc (s : State) (v : Byte) : (s.setX v).pc = s.pc := rfl
@[simp] theorem setX_flagN (s : State) (v : Byte) : (s.setX v).flagN = s.flagN := rfl
@[simp] theorem setX_flagV (s : State) (v : Byte) : (s.setX v).flagV = s.flagV := rfl
@[simp] theorem setX_flagD (s : State) (v : Byte) : (s.setX v).flagD = s.flagD := rfl
@[simp] theorem setX_flagZ (s : State) (v : Byte) : (s.setX v).flagZ = s.flagZ := rfl
@[simp] theorem setX_flagC (s : State) (v : Byte) : (s.setX v).flagC = s.flagC := rfl
@[simp] theorem setX_flagI (s : State) (v : Byte) : (s.setX v).flagI = s.flagI := rfl
@[simp] theorem setX_mem (s : State) (v : Byte) : (s.setX v).mem = s.mem := rfl
@[simp] theorem setX_readByte (s : State) (v : Byte) (addr : Addr) : (s.setX v).readByte addr = s.readByte addr := rfl

@[simp] theorem setY_a (s : State) (v : Byte) : (s.setY v).a = s.a := rfl
@[simp] theorem setY_x (s : State) (v : Byte) : (s.setY v).x = s.x := rfl
@[simp] theorem setY_y (s : State) (v : Byte) : (s.setY v).y = v := rfl
@[simp] theorem setY_pc (s : State) (v : Byte) : (s.setY v).pc = s.pc := rfl
@[simp] theorem setY_flagN (s : State) (v : Byte) : (s.setY v).flagN = s.flagN := rfl
@[simp] theorem setY_flagV (s : State) (v : Byte) : (s.setY v).flagV = s.flagV := rfl
@[simp] theorem setY_flagD (s : State) (v : Byte) : (s.setY v).flagD = s.flagD := rfl
@[simp] theorem setY_flagZ (s : State) (v : Byte) : (s.setY v).flagZ = s.flagZ := rfl
@[simp] theorem setY_flagC (s : State) (v : Byte) : (s.setY v).flagC = s.flagC := rfl
@[simp] theorem setY_flagI (s : State) (v : Byte) : (s.setY v).flagI = s.flagI := rfl
@[simp] theorem setY_mem (s : State) (v : Byte) : (s.setY v).mem = s.mem := rfl
@[simp] theorem setY_readByte (s : State) (v : Byte) (addr : Addr) : (s.setY v).readByte addr = s.readByte addr := rfl

@[simp] theorem setPC_a (s : State) (v : Addr) : (s.setPC v).a = s.a := rfl
@[simp] theorem setPC_x (s : State) (v : Addr) : (s.setPC v).x = s.x := rfl
@[simp] theorem setPC_y (s : State) (v : Addr) : (s.setPC v).y = s.y := rfl
@[simp] theorem setPC_pc (s : State) (v : Addr) : (s.setPC v).pc = v := rfl
@[simp] theorem setPC_flagN (s : State) (v : Addr) : (s.setPC v).flagN = s.flagN := rfl
@[simp] theorem setPC_flagV (s : State) (v : Addr) : (s.setPC v).flagV = s.flagV := rfl
@[simp] theorem setPC_flagD (s : State) (v : Addr) : (s.setPC v).flagD = s.flagD := rfl
@[simp] theorem setPC_flagZ (s : State) (v : Addr) : (s.setPC v).flagZ = s.flagZ := rfl
@[simp] theorem setPC_flagC (s : State) (v : Addr) : (s.setPC v).flagC = s.flagC := rfl
@[simp] theorem setPC_flagI (s : State) (v : Addr) : (s.setPC v).flagI = s.flagI := rfl
@[simp] theorem setPC_mem (s : State) (v : Addr) : (s.setPC v).mem = s.mem := rfl
@[simp] theorem setPC_readByte (s : State) (v : Addr) (addr : Addr) : (s.setPC v).readByte addr = s.readByte addr := rfl

@[simp] theorem setN_a (s : State) (v : Bool) : (s.setN v).a = s.a := rfl
@[simp] theorem setN_x (s : State) (v : Bool) : (s.setN v).x = s.x := rfl
@[simp] theorem setN_y (s : State) (v : Bool) : (s.setN v).y = s.y := rfl
@[simp] theorem setN_pc (s : State) (v : Bool) : (s.setN v).pc = s.pc := rfl
@[simp] theorem setN_flagN (s : State) (v : Bool) : (s.setN v).flagN = v := rfl
@[simp] theorem setN_flagV (s : State) (v : Bool) : (s.setN v).flagV = s.flagV := rfl
@[simp] theorem setN_flagD (s : State) (v : Bool) : (s.setN v).flagD = s.flagD := rfl
@[simp] theorem setN_flagZ (s : State) (v : Bool) : (s.setN v).flagZ = s.flagZ := rfl
@[simp] theorem setN_flagC (s : State) (v : Bool) : (s.setN v).flagC = s.flagC := rfl
@[simp] theorem setN_flagI (s : State) (v : Bool) : (s.setN v).flagI = s.flagI := rfl
@[simp] theorem setN_mem (s : State) (v : Bool) : (s.setN v).mem = s.mem := rfl
@[simp] theorem setN_readByte (s : State) (v : Bool) (addr : Addr) : (s.setN v).readByte addr = s.readByte addr := rfl

@[simp] theorem setV_a (s : State) (v : Bool) : (s.setV v).a = s.a := rfl
@[simp] theorem setV_x (s : State) (v : Bool) : (s.setV v).x = s.x := rfl
@[simp] theorem setV_y (s : State) (v : Bool) : (s.setV v).y = s.y := rfl
@[simp] theorem setV_pc (s : State) (v : Bool) : (s.setV v).pc = s.pc := rfl
@[simp] theorem setV_flagN (s : State) (v : Bool) : (s.setV v).flagN = s.flagN := rfl
@[simp] theorem setV_flagV (s : State) (v : Bool) : (s.setV v).flagV = v := rfl
@[simp] theorem setV_flagD (s : State) (v : Bool) : (s.setV v).flagD = s.flagD := rfl
@[simp] theorem setV_flagZ (s : State) (v : Bool) : (s.setV v).flagZ = s.flagZ := rfl
@[simp] theorem setV_flagC (s : State) (v : Bool) : (s.setV v).flagC = s.flagC := rfl
@[simp] theorem setV_flagI (s : State) (v : Bool) : (s.setV v).flagI = s.flagI := rfl
@[simp] theorem setV_mem (s : State) (v : Bool) : (s.setV v).mem = s.mem := rfl
@[simp] theorem setV_readByte (s : State) (v : Bool) (addr : Addr) : (s.setV v).readByte addr = s.readByte addr := rfl

@[simp] theorem setD_a (s : State) (v : Bool) : (s.setD v).a = s.a := rfl
@[simp] theorem setD_x (s : State) (v : Bool) : (s.setD v).x = s.x := rfl
@[simp] theorem setD_y (s : State) (v : Bool) : (s.setD v).y = s.y := rfl
@[simp] theorem setD_pc (s : State) (v : Bool) : (s.setD v).pc = s.pc := rfl
@[simp] theorem setD_flagN (s : State) (v : Bool) : (s.setD v).flagN = s.flagN := rfl
@[simp] theorem setD_flagV (s : State) (v : Bool) : (s.setD v).flagV = s.flagV := rfl
@[simp] theorem setD_flagD (s : State) (v : Bool) : (s.setD v).flagD = v := rfl
@[simp] theorem setD_flagZ (s : State) (v : Bool) : (s.setD v).flagZ = s.flagZ := rfl
@[simp] theorem setD_flagC (s : State) (v : Bool) : (s.setD v).flagC = s.flagC := rfl
@[simp] theorem setD_flagI (s : State) (v : Bool) : (s.setD v).flagI = s.flagI := rfl
@[simp] theorem setD_mem (s : State) (v : Bool) : (s.setD v).mem = s.mem := rfl
@[simp] theorem setD_readByte (s : State) (v : Bool) (addr : Addr) : (s.setD v).readByte addr = s.readByte addr := rfl

@[simp] theorem setZ_a (s : State) (v : Bool) : (s.setZ v).a = s.a := rfl
@[simp] theorem setZ_x (s : State) (v : Bool) : (s.setZ v).x = s.x := rfl
@[simp] theorem setZ_y (s : State) (v : Bool) : (s.setZ v).y = s.y := rfl
@[simp] theorem setZ_pc (s : State) (v : Bool) : (s.setZ v).pc = s.pc := rfl
@[simp] theorem setZ_flagN (s : State) (v : Bool) : (s.setZ v).flagN = s.flagN := rfl
@[simp] theorem setZ_flagV (s : State) (v : Bool) : (s.setZ v).flagV = s.flagV := rfl
@[simp] theorem setZ_flagD (s : State) (v : Bool) : (s.setZ v).flagD = s.flagD := rfl
@[simp] theorem setZ_flagZ (s : State) (v : Bool) : (s.setZ v).flagZ = v := rfl
@[simp] theorem setZ_flagC (s : State) (v : Bool) : (s.setZ v).flagC = s.flagC := rfl
@[simp] theorem setZ_flagI (s : State) (v : Bool) : (s.setZ v).flagI = s.flagI := rfl
@[simp] theorem setZ_mem (s : State) (v : Bool) : (s.setZ v).mem = s.mem := rfl
@[simp] theorem setZ_readByte (s : State) (v : Bool) (addr : Addr) : (s.setZ v).readByte addr = s.readByte addr := rfl

@[simp] theorem setC_a (s : State) (v : Bool) : (s.setC v).a = s.a := rfl
@[simp] theorem setC_x (s : State) (v : Bool) : (s.setC v).x = s.x := rfl
@[simp] theorem setC_y (s : State) (v : Bool) : (s.setC v).y = s.y := rfl
@[simp] theorem setC_pc (s : State) (v : Bool) : (s.setC v).pc = s.pc := rfl
@[simp] theorem setC_flagN (s : State) (v : Bool) : (s.setC v).flagN = s.flagN := rfl
@[simp] theorem setC_flagV (s : State) (v : Bool) : (s.setC v).flagV = s.flagV := rfl
@[simp] theorem setC_flagD (s : State) (v : Bool) : (s.setC v).flagD = s.flagD := rfl
@[simp] theorem setC_flagZ (s : State) (v : Bool) : (s.setC v).flagZ = s.flagZ := rfl
@[simp] theorem setC_flagC (s : State) (v : Bool) : (s.setC v).flagC = v := rfl
@[simp] theorem setC_flagI (s : State) (v : Bool) : (s.setC v).flagI = s.flagI := rfl
@[simp] theorem setC_mem (s : State) (v : Bool) : (s.setC v).mem = s.mem := rfl
@[simp] theorem setC_readByte (s : State) (v : Bool) (addr : Addr) : (s.setC v).readByte addr = s.readByte addr := rfl

@[simp] theorem setI_a (s : State) (v : Bool) : (s.setI v).a = s.a := rfl
@[simp] theorem setI_x (s : State) (v : Bool) : (s.setI v).x = s.x := rfl
@[simp] theorem setI_y (s : State) (v : Bool) : (s.setI v).y = s.y := rfl
@[simp] theorem setI_pc (s : State) (v : Bool) : (s.setI v).pc = s.pc := rfl
@[simp] theorem setI_flagN (s : State) (v : Bool) : (s.setI v).flagN = s.flagN := rfl
@[simp] theorem setI_flagV (s : State) (v : Bool) : (s.setI v).flagV = s.flagV := rfl
@[simp] theorem setI_flagD (s : State) (v : Bool) : (s.setI v).flagD = s.flagD := rfl
@[simp] theorem setI_flagZ (s : State) (v : Bool) : (s.setI v).flagZ = s.flagZ := rfl
@[simp] theorem setI_flagC (s : State) (v : Bool) : (s.setI v).flagC = s.flagC := rfl
@[simp] theorem setI_flagI (s : State) (v : Bool) : (s.setI v).flagI = v := rfl
@[simp] theorem setI_mem (s : State) (v : Bool) : (s.setI v).mem = s.mem := rfl
@[simp] theorem setI_readByte (s : State) (v : Bool) (addr : Addr) : (s.setI v).readByte addr = s.readByte addr := rfl

@[simp] theorem writeByte_a (s : State) (addr : Addr) (v : Byte) : (s.writeByte addr v).a = s.a := rfl
@[simp] theorem writeByte_x (s : State) (addr : Addr) (v : Byte) : (s.writeByte addr v).x = s.x := rfl
@[simp] theorem writeByte_y (s : State) (addr : Addr) (v : Byte) : (s.writeByte addr v).y = s.y := rfl
@[simp] theorem writeByte_pc (s : State) (addr : Addr) (v : Byte) : (s.writeByte addr v).pc = s.pc := rfl
@[simp] theorem writeByte_flagN (s : State) (addr : Addr) (v : Byte) : (s.writeByte addr v).flagN = s.flagN := rfl
@[simp] theorem writeByte_flagV (s : State) (addr : Addr) (v : Byte) : (s.writeByte addr v).flagV = s.flagV := rfl
@[simp] theorem writeByte_flagD (s : State) (addr : Addr) (v : Byte) : (s.writeByte addr v).flagD = s.flagD := rfl
@[simp] theorem writeByte_flagZ (s : State) (addr : Addr) (v : Byte) : (s.writeByte addr v).flagZ = s.flagZ := rfl
@[simp] theorem writeByte_flagC (s : State) (addr : Addr) (v : Byte) : (s.writeByte addr v).flagC = s.flagC := rfl
@[simp] theorem writeByte_flagI (s : State) (addr : Addr) (v : Byte) : (s.writeByte addr v).flagI = s.flagI := rfl
@[simp] theorem writeByte_mem (s : State) (addr : Addr) (v : Byte) : (s.writeByte addr v).mem = s.mem.write addr v := rfl

@[simp] theorem setNZ_a (s : State) (r : Byte) : (s.setNZ r).a = s.a := rfl
@[simp] theorem setNZ_x (s : State) (r : Byte) : (s.setNZ r).x = s.x := rfl
@[simp] theorem setNZ_y (s : State) (r : Byte) : (s.setNZ r).y = s.y := rfl
@[simp] theorem setNZ_pc (s : State) (r : Byte) : (s.setNZ r).pc = s.pc := rfl
@[simp] theorem setNZ_flagN (s : State) (r : Byte) : (s.setNZ r).flagN = negativeOf r := rfl
@[simp] theorem setNZ_flagV (s : State) (r : Byte) : (s.setNZ r).flagV = s.flagV := rfl
@[simp] theorem setNZ_flagD (s : State) (r : Byte) : (s.setNZ r).flagD = s.flagD := rfl
@[simp] theorem setNZ_flagZ (s : State) (r : Byte) : (s.setNZ r).flagZ = zeroOf r := rfl
@[simp] theorem setNZ_flagC (s : State) (r : Byte) : (s.setNZ r).flagC = s.flagC := rfl
@[simp] theorem setNZ_flagI (s : State) (r : Byte) : (s.setNZ r).flagI = s.flagI := rfl
@[simp] theorem setNZ_mem (s : State) (r : Byte) : (s.setNZ r).mem = s.mem := rfl
@[simp] theorem setNZ_readByte (s : State) (r : Byte) (addr : Addr) : (s.setNZ r).readByte addr = s.readByte addr := rfl

@[simp] theorem advance_a (s : State) (len : Nat) : (s.advance len).a = s.a := rfl
@[simp] theorem advance_x (s : State) (len : Nat) : (s.advance len).x = s.x := rfl
@[simp] theorem advance_y (s : State) (len : Nat) : (s.advance len).y = s.y := rfl
@[simp] theorem advance_pc (s : State) (len : Nat) : (s.advance len).pc = s.pc + BitVec.ofNat 16 len := rfl
@[simp] theorem advance_flagN (s : State) (len : Nat) : (s.advance len).flagN = s.flagN := rfl
@[simp] theorem advance_flagV (s : State) (len : Nat) : (s.advance len).flagV = s.flagV := rfl
@[simp] theorem advance_flagD (s : State) (len : Nat) : (s.advance len).flagD = s.flagD := rfl
@[simp] theorem advance_flagZ (s : State) (len : Nat) : (s.advance len).flagZ = s.flagZ := rfl
@[simp] theorem advance_flagC (s : State) (len : Nat) : (s.advance len).flagC = s.flagC := rfl
@[simp] theorem advance_flagI (s : State) (len : Nat) : (s.advance len).flagI = s.flagI := rfl
@[simp] theorem advance_mem (s : State) (len : Nat) : (s.advance len).mem = s.mem := rfl
@[simp] theorem advance_readByte (s : State) (len : Nat) (addr : Addr) : (s.advance len).readByte addr = s.readByte addr := rfl

/-- Two states are equal when every field is. -/
theorem ext_fields {s t : State} (ha : s.a = t.a) (hx : s.x = t.x) (hy : s.y = t.y) (hpc : s.pc = t.pc) (hn : s.flagN = t.flagN)
    (hv : s.flagV = t.flagV) (hd : s.flagD = t.flagD) (hz : s.flagZ = t.flagZ) (hc : s.flagC = t.flagC) (hi : s.flagI = t.flagI)
    (hm : s.mem = t.mem) : s = t := by
  cases s; cases t; simp_all

end Sys2Proof.Machine.State
end

