-- ==== Sys2Proof/Laws/Memory.lean ====
section
/-! SUPPORT. Memory: read after write, and the canonical form that every operation keeps. -/

namespace Sys2Proof.Machine

theorem canonicalFrom_cons {low k : Nat} {w : Byte} {rest : List Host.Cell} :
    canonicalFrom low ((k, w) :: rest) = true ↔
      low ≤ k ∧ k < Config.memorySize ∧ w ≠ Config.unlistedByte ∧ canonicalFrom (k + 1) rest = true := by
  simp [canonicalFrom, and_assoc]

/-- A list canonical from an address is canonical from every lower one. -/
theorem canonicalFrom_mono {low low' : Nat} {cells : List Host.Cell} (h : canonicalFrom low cells = true) (hl : low' ≤ low) :
    canonicalFrom low' cells = true := by
  cases cells with
  | nil => rfl
  | cons c rest =>
    obtain ⟨h1, h2⟩ := canonicalFrom_cons.1 h
    exact canonicalFrom_cons.2 ⟨Nat.le_trans hl h1, h2⟩

/-- Below its first address a canonical list reads as unlisted. -/
theorem lookupCell_below {low key : Nat} {cells : List Host.Cell} (h : canonicalFrom low cells = true) (hk : key < low) :
    lookupCell cells key = Config.unlistedByte := by
  induction cells generalizing low with
  | nil => rfl
  | cons c rest ih =>
    obtain ⟨h1, -, -, h4⟩ := canonicalFrom_cons.1 h
    have hne : key ≠ c.1 := by omega
    simp [lookupCell, hne, ih h4 (by omega)]

/-- A write leaves every other address alone. -/
theorem lookupCell_setCell_ne {cells : List Host.Cell} {key other : Nat} (v : Byte) (hne : other ≠ key) :
    lookupCell (setCell cells key v) other = lookupCell cells other := by
  induction cells with
  | nil => by_cases hv : v = Config.unlistedByte <;> simp [setCell, lookupCell, hv, hne]
  | cons c rest ih =>
    obtain ⟨k, w⟩ := c
    by_cases h1 : key < k
    · by_cases hv : v = Config.unlistedByte <;> simp [setCell, lookupCell, h1, hv, hne]
    · by_cases h2 : key = k
      · subst h2
        by_cases hv : v = Config.unlistedByte <;> simp [setCell, lookupCell, hv, hne]
      · simp [setCell, lookupCell, h1, h2, ih]

/-- Reading back a written address gives the value written. -/
theorem lookupCell_setCell_eq {cells : List Host.Cell} {low key : Nat} (v : Byte) (h : canonicalFrom low cells = true) :
    lookupCell (setCell cells key v) key = v := by
  induction cells generalizing low with
  | nil => by_cases hv : v = Config.unlistedByte <;> simp [setCell, lookupCell, hv]
  | cons c rest ih =>
    obtain ⟨k, w⟩ := c
    obtain ⟨-, -, -, h4⟩ := canonicalFrom_cons.1 h
    by_cases h1 : key < k
    · by_cases hv : v = Config.unlistedByte
      · have hne : key ≠ k := by omega
        have := lookupCell_below h4 (show key < k + 1 by omega)
        simp [setCell, lookupCell, h1, hv, hne, this]
      · simp [setCell, lookupCell, h1, hv]
    · by_cases h2 : key = k
      · subst h2
        by_cases hv : v = Config.unlistedByte
        · have := lookupCell_below h4 (show key < key + 1 by omega)
          simp [setCell, hv, this]
        · simp [setCell, lookupCell, hv]
      · simp [setCell, lookupCell, h1, h2, ih h4]

/-- A write inside the address space keeps the canonical form. -/
theorem canonicalFrom_setCell {cells : List Host.Cell} {low key : Nat} (v : Byte) (h : canonicalFrom low cells = true)
    (hlow : low ≤ key) (hkey : key < Config.memorySize) : canonicalFrom low (setCell cells key v) = true := by
  induction cells generalizing low with
  | nil =>
    by_cases hv : v = Config.unlistedByte
    · simp [setCell, hv, canonicalFrom]
    · simp [setCell, hv, canonicalFrom, hlow, hkey]
  | cons c rest ih =>
    obtain ⟨k, w⟩ := c
    obtain ⟨h1, h2, h3, h4⟩ := canonicalFrom_cons.1 h
    by_cases hk : key < k
    · by_cases hv : v = Config.unlistedByte
      · simpa [setCell, hk, hv] using h
      · simp only [setCell, hk, hv, if_true, if_false]
        exact canonicalFrom_cons.2 ⟨hlow, hkey, hv, canonicalFrom_cons.2 ⟨hk, h2, h3, h4⟩⟩
    · by_cases hk' : key = k
      · subst hk'
        by_cases hv : v = Config.unlistedByte
        · simp only [setCell, hv, Nat.lt_irrefl, if_true, if_false]
          exact canonicalFrom_mono h4 (by omega)
        · simp only [setCell, hv, Nat.lt_irrefl, if_true, if_false]
          exact canonicalFrom_cons.2 ⟨hlow, hkey, hv, h4⟩
      · simp only [setCell, hk, hk', if_false]
        exact canonicalFrom_cons.2 ⟨h1, h2, h3, ih h4 (by omega)⟩

/-- In a canonical list every listed cell reads as itself and differs from an unlisted one. -/
theorem lookupCell_head {low k : Nat} {w : Byte} {rest : List Host.Cell} (h : canonicalFrom low ((k, w) :: rest) = true) :
    lookupCell ((k, w) :: rest) k ≠ Config.unlistedByte := by
  simpa [lookupCell] using (canonicalFrom_cons.1 h).2.2.1

theorem Memory.write_wf {m : Memory} (addr : Addr) (v : Byte) (h : m.wf = true) : (m.write addr v).wf = true :=
  canonicalFrom_setCell v h (Nat.zero_le _) addr.isLt

theorem Memory.read_write_eq {m : Memory} (addr : Addr) (v : Byte) (h : m.wf = true) : (m.write addr v).read addr = v :=
  lookupCell_setCell_eq v h

theorem Memory.read_write_ne (m : Memory) {addr other : Addr} (v : Byte) (hne : other ≠ addr) :
    (m.write addr v).read other = m.read other :=
  lookupCell_setCell_ne v (fun h => hne (BitVec.eq_of_toNat_eq h))

namespace State

theorem readByte_writeByte_eq {s : State} (addr : Addr) (v : Byte) (h : s.Inv) : (s.writeByte addr v).readByte addr = v :=
  Memory.read_write_eq addr v h

theorem readByte_writeByte_ne (s : State) {addr other : Addr} (v : Byte) (hne : other ≠ addr) :
    (s.writeByte addr v).readByte other = s.readByte other :=
  Memory.read_write_ne s.mem v hne

/-- Whatever keeps the memory keeps the invariant. -/
theorem Inv.of_mem_eq {s t : State} (h : s.Inv) (hm : t.mem = s.mem) : t.Inv := by
  unfold State.Inv at *; rw [hm]; exact h

theorem writeByte_inv {s : State} (addr : Addr) (v : Byte) (h : s.Inv) : (s.writeByte addr v).Inv := Memory.write_wf addr v h

/-- Laying bytes keeps the invariant. -/
theorem layBytes_inv {bytes : List Byte} {addr : Addr} {s : State} (h : s.Inv) : (layBytes bytes addr s).Inv := by
  induction bytes generalizing addr s with
  | nil => exact h
  | cons b rest ih => exact ih (writeByte_inv addr b h)

end State

end Sys2Proof.Machine
end

