-- ==== Sys2Proof/Laws/Exec.lean ====
section
/-! SUPPORT. What each executor does to each field, once, and what `exec` answers for each kind of instruction. -/

namespace Sys2Proof.Machine

/-! The shared operations, field by field: what the rule writes, and that the rest is kept. -/

@[simp] theorem adc_a (m : Byte) (s : State) : (adc m s).a = (adcSum s.flagD s.a m s.flagC).result := rfl
@[simp] theorem adc_x (m : Byte) (s : State) : (adc m s).x = s.x := rfl
@[simp] theorem adc_y (m : Byte) (s : State) : (adc m s).y = s.y := rfl
@[simp] theorem adc_pc (m : Byte) (s : State) : (adc m s).pc = s.pc := rfl
@[simp] theorem adc_flagN (m : Byte) (s : State) : (adc m s).flagN = negativeOf (adcSum s.flagD s.a m s.flagC).result := rfl
@[simp] theorem adc_flagV (m : Byte) (s : State) : (adc m s).flagV = overflowOf s.a m (adcSum s.flagD s.a m s.flagC).result := rfl
@[simp] theorem adc_flagD (m : Byte) (s : State) : (adc m s).flagD = s.flagD := rfl
@[simp] theorem adc_flagZ (m : Byte) (s : State) : (adc m s).flagZ = zeroOf (adcSum s.flagD s.a m s.flagC).result := rfl
@[simp] theorem adc_flagC (m : Byte) (s : State) : (adc m s).flagC = (adcSum s.flagD s.a m s.flagC).carry := rfl
@[simp] theorem adc_flagI (m : Byte) (s : State) : (adc m s).flagI = s.flagI := rfl
@[simp] theorem adc_mem (m : Byte) (s : State) : (adc m s).mem = s.mem := rfl

@[simp] theorem andA_a (m : Byte) (s : State) : (andA m s).a = s.a &&& m := rfl
@[simp] theorem andA_x (m : Byte) (s : State) : (andA m s).x = s.x := rfl
@[simp] theorem andA_y (m : Byte) (s : State) : (andA m s).y = s.y := rfl
@[simp] theorem andA_pc (m : Byte) (s : State) : (andA m s).pc = s.pc := rfl
@[simp] theorem andA_flagN (m : Byte) (s : State) : (andA m s).flagN = negativeOf (s.a &&& m) := rfl
@[simp] theorem andA_flagV (m : Byte) (s : State) : (andA m s).flagV = s.flagV := rfl
@[simp] theorem andA_flagD (m : Byte) (s : State) : (andA m s).flagD = s.flagD := rfl
@[simp] theorem andA_flagZ (m : Byte) (s : State) : (andA m s).flagZ = zeroOf (s.a &&& m) := rfl
@[simp] theorem andA_flagC (m : Byte) (s : State) : (andA m s).flagC = s.flagC := rfl
@[simp] theorem andA_flagI (m : Byte) (s : State) : (andA m s).flagI = s.flagI := rfl
@[simp] theorem andA_mem (m : Byte) (s : State) : (andA m s).mem = s.mem := rfl

@[simp] theorem aslA_a (s : State) : (aslA s).a = (shiftLeft s.a).result := rfl
@[simp] theorem aslA_x (s : State) : (aslA s).x = s.x := rfl
@[simp] theorem aslA_y (s : State) : (aslA s).y = s.y := rfl
@[simp] theorem aslA_pc (s : State) : (aslA s).pc = s.pc := rfl
@[simp] theorem aslA_flagN (s : State) : (aslA s).flagN = negativeOf (shiftLeft s.a).result := rfl
@[simp] theorem aslA_flagV (s : State) : (aslA s).flagV = s.flagV := rfl
@[simp] theorem aslA_flagD (s : State) : (aslA s).flagD = s.flagD := rfl
@[simp] theorem aslA_flagZ (s : State) : (aslA s).flagZ = zeroOf (shiftLeft s.a).result := rfl
@[simp] theorem aslA_flagC (s : State) : (aslA s).flagC = (shiftLeft s.a).carry := rfl
@[simp] theorem aslA_flagI (s : State) : (aslA s).flagI = s.flagI := rfl
@[simp] theorem aslA_mem (s : State) : (aslA s).mem = s.mem := rfl

@[simp] theorem aslMem_a (r : Resolved) (s : State) : (aslMem r s).a = s.a := rfl
@[simp] theorem aslMem_x (r : Resolved) (s : State) : (aslMem r s).x = s.x := rfl
@[simp] theorem aslMem_y (r : Resolved) (s : State) : (aslMem r s).y = s.y := rfl
@[simp] theorem aslMem_pc (r : Resolved) (s : State) : (aslMem r s).pc = s.pc := rfl
@[simp] theorem aslMem_flagN (r : Resolved) (s : State) : (aslMem r s).flagN = negativeOf (shiftLeft (s.operandAt r)).result := rfl
@[simp] theorem aslMem_flagV (r : Resolved) (s : State) : (aslMem r s).flagV = s.flagV := rfl
@[simp] theorem aslMem_flagD (r : Resolved) (s : State) : (aslMem r s).flagD = s.flagD := rfl
@[simp] theorem aslMem_flagZ (r : Resolved) (s : State) : (aslMem r s).flagZ = zeroOf (shiftLeft (s.operandAt r)).result := rfl
@[simp] theorem aslMem_flagC (r : Resolved) (s : State) : (aslMem r s).flagC = (shiftLeft (s.operandAt r)).carry := rfl
@[simp] theorem aslMem_flagI (r : Resolved) (s : State) : (aslMem r s).flagI = s.flagI := rfl
@[simp] theorem aslMem_mem (r : Resolved) (s : State) : (aslMem r s).mem = s.mem.write r.ea (shiftLeft (s.operandAt r)).result := rfl

@[simp] theorem bitTest_a (m : Byte) (s : State) : (bitTest m s).a = s.a := rfl
@[simp] theorem bitTest_x (m : Byte) (s : State) : (bitTest m s).x = s.x := rfl
@[simp] theorem bitTest_y (m : Byte) (s : State) : (bitTest m s).y = s.y := rfl
@[simp] theorem bitTest_pc (m : Byte) (s : State) : (bitTest m s).pc = s.pc := rfl
@[simp] theorem bitTest_flagN (m : Byte) (s : State) : (bitTest m s).flagN = m.getLsbD 7 := rfl
@[simp] theorem bitTest_flagV (m : Byte) (s : State) : (bitTest m s).flagV = m.getLsbD 6 := rfl
@[simp] theorem bitTest_flagD (m : Byte) (s : State) : (bitTest m s).flagD = s.flagD := rfl
@[simp] theorem bitTest_flagZ (m : Byte) (s : State) : (bitTest m s).flagZ = zeroOf (s.a &&& m) := rfl
@[simp] theorem bitTest_flagC (m : Byte) (s : State) : (bitTest m s).flagC = s.flagC := rfl
@[simp] theorem bitTest_flagI (m : Byte) (s : State) : (bitTest m s).flagI = s.flagI := rfl
@[simp] theorem bitTest_mem (m : Byte) (s : State) : (bitTest m s).mem = s.mem := rfl

/-- A branch writes PC and nothing else (43_branches.md R208). -/
theorem branch_eq (c : Bool) (rel : Byte) (s : State) : branch c rel s = s.setPC (branch c rel s).pc := by
  cases c <;> rfl

@[simp] theorem branch_pc (c : Bool) (rel : Byte) (s : State) :
    (branch c rel s).pc = if c then branchTarget rel s else branchNext s := by
  cases c <;> rfl

@[simp] theorem branch_a (c : Bool) (rel : Byte) (s : State) : (branch c rel s).a = s.a := by cases c <;> rfl
@[simp] theorem branch_x (c : Bool) (rel : Byte) (s : State) : (branch c rel s).x = s.x := by cases c <;> rfl
@[simp] theorem branch_y (c : Bool) (rel : Byte) (s : State) : (branch c rel s).y = s.y := by cases c <;> rfl
@[simp] theorem branch_flagN (c : Bool) (rel : Byte) (s : State) : (branch c rel s).flagN = s.flagN := by cases c <;> rfl
@[simp] theorem branch_flagV (c : Bool) (rel : Byte) (s : State) : (branch c rel s).flagV = s.flagV := by cases c <;> rfl
@[simp] theorem branch_flagD (c : Bool) (rel : Byte) (s : State) : (branch c rel s).flagD = s.flagD := by cases c <;> rfl
@[simp] theorem branch_flagZ (c : Bool) (rel : Byte) (s : State) : (branch c rel s).flagZ = s.flagZ := by cases c <;> rfl
@[simp] theorem branch_flagC (c : Bool) (rel : Byte) (s : State) : (branch c rel s).flagC = s.flagC := by cases c <;> rfl
@[simp] theorem branch_flagI (c : Bool) (rel : Byte) (s : State) : (branch c rel s).flagI = s.flagI := by cases c <;> rfl
@[simp] theorem branch_mem (c : Bool) (rel : Byte) (s : State) : (branch c rel s).mem = s.mem := by cases c <;> rfl

/-! What `exec` answers, by kind of instruction. Together the kinds are all of Instr (`exec_kinds`). -/

theorem exec_adc {i : Instr} {s : State} {m : Byte} (hi : i.mnemonic = .adc) (hm : operand i s = some m) :
    exec i s = .next ((adc m s).advance i.length) := by
  cases i <;> simp [Instr.mnemonic] at hi <;> simp [operand, resolve, directOperand] at hm <;> subst hm <;> rfl

theorem exec_and {i : Instr} {s : State} {m : Byte} (hi : i.mnemonic = .and) (hm : operand i s = some m) :
    exec i s = .next ((andA m s).advance i.length) := by
  cases i <;> simp [Instr.mnemonic] at hi <;> simp [operand, resolve, directOperand] at hm <;> subst hm <;> rfl

theorem exec_bit {i : Instr} {s : State} {m : Byte} (hi : i.mnemonic = .bit) (hm : operand i s = some m) :
    exec i s = .next ((bitTest m s).advance i.length) := by
  cases i <;> simp [Instr.mnemonic] at hi <;> simp [operand, resolve] at hm <;> subst hm <;> rfl

theorem exec_aslMem {i : Instr} {s : State} {r : Resolved} (hi : i.mnemonic = .asl) (hr : resolve i s = some r) :
    exec i s = .next ((aslMem r s).advance i.length) := by
  cases i <;> simp [Instr.mnemonic] at hi <;> simp [resolve] at hr <;> subst hr <;> rfl

theorem exec_aslAcc (s : State) : exec .aslAcc s = .next ((aslA s).advance 1) := rfl

theorem exec_branch {i : Instr} {s : State} {c : Bool} {rel : Byte} (h : branchOf i s = some (c, rel)) :
    exec i s = .next (branch c rel s) := by
  cases i <;> simp [branchOf] at h <;> obtain ⟨rfl, rfl⟩ := h <;> rfl

/-- Every instruction is of exactly one of these kinds; its operand, address or condition is at hand. -/
theorem exec_kinds (i : Instr) (s : State) :
    (i.mnemonic = .adc ∧ ∃ m, operand i s = some m) ∨ (i.mnemonic = .and ∧ ∃ m, operand i s = some m) ∨
    (i.mnemonic = .bit ∧ ∃ m, operand i s = some m) ∨ (i.mnemonic = .asl ∧ ∃ r, resolve i s = some r) ∨ i = .aslAcc ∨
    ∃ c rel, branchOf i s = some (c, rel) := by
  cases i <;> simp [Instr.mnemonic, operand, resolve, directOperand, branchOf]

/-- What an executed instruction's next state is (the inversion of `exec`). -/
theorem exec_next_cases {i : Instr} {s t : State} (h : exec i s = .next t) :
    (∃ m, i.mnemonic = .adc ∧ operand i s = some m ∧ t = (adc m s).advance i.length) ∨
    (∃ m, i.mnemonic = .and ∧ operand i s = some m ∧ t = (andA m s).advance i.length) ∨
    (∃ m, i.mnemonic = .bit ∧ operand i s = some m ∧ t = (bitTest m s).advance i.length) ∨
    (∃ r, i.mnemonic = .asl ∧ resolve i s = some r ∧ t = (aslMem r s).advance i.length) ∨
    (i = .aslAcc ∧ t = (aslA s).advance 1) ∨
    (∃ c rel, branchOf i s = some (c, rel) ∧ t = branch c rel s) := by
  rcases exec_kinds i s with ⟨hi, m, hm⟩ | ⟨hi, m, hm⟩ | ⟨hi, m, hm⟩ | ⟨hi, r, hr⟩ | rfl | ⟨c, rel, hb⟩
  · rw [exec_adc hi hm] at h; cases h; exact .inl ⟨m, hi, hm, rfl⟩
  · rw [exec_and hi hm] at h; cases h; exact .inr (.inl ⟨m, hi, hm, rfl⟩)
  · rw [exec_bit hi hm] at h; cases h; exact .inr (.inr (.inl ⟨m, hi, hm, rfl⟩))
  · rw [exec_aslMem hi hr] at h; cases h; exact .inr (.inr (.inr (.inl ⟨r, hi, hr, rfl⟩)))
  · rw [exec_aslAcc] at h; cases h; exact .inr (.inr (.inr (.inr (.inl ⟨rfl, rfl⟩))))
  · rw [exec_branch hb] at h; cases h; exact .inr (.inr (.inr (.inr (.inr ⟨c, rel, hb, rfl⟩))))

/-- No instruction writes X, Y, D or I (10_state.md R22, R23, R34, R35). -/
theorem exec_keeps_index_decimal_placeholder {i : Instr} {s t : State} (h : exec i s = .next t) :
    t.x = s.x ∧ t.y = s.y ∧ t.flagD = s.flagD ∧ t.flagI = s.flagI := by
  rcases exec_next_cases h with ⟨m, -, -, rfl⟩ | ⟨m, -, -, rfl⟩ | ⟨m, -, -, rfl⟩ | ⟨r, -, -, rfl⟩ | ⟨-, rfl⟩ | ⟨c, rel, -, rfl⟩ <;> simp

/-- The memory after an instruction: as before, or one byte written by ASL at its effective address. -/
theorem exec_mem_cases {i : Instr} {s t : State} (h : exec i s = .next t) :
    t.mem = s.mem ∨ ∃ r, i.mnemonic = .asl ∧ resolve i s = some r ∧
      t.mem = s.mem.write r.ea (shiftLeft (s.operandAt r)).result := by
  rcases exec_next_cases h with ⟨m, -, -, rfl⟩ | ⟨m, -, -, rfl⟩ | ⟨m, -, -, rfl⟩ | ⟨r, hi, hr, rfl⟩ | ⟨-, rfl⟩ | ⟨c, rel, -, rfl⟩
  all_goals first | exact .inr ⟨r, hi, hr, rfl⟩ | (left; simp)

end Sys2Proof.Machine
end

