-- ==== Sys2Proof/Laws/Flags.lean ====
section
/-! SUPPORT. The arithmetic of Machine/Flags.lean as numbers. -/

namespace Sys2Proof.Machine

@[simp] theorem carryByte_toNat (c : Bool) : (carryByte c).toNat = c.toNat := by cases c <;> rfl

theorem zeroOf_iff (r : Byte) : zeroOf r = true ↔ r.toNat = 0 := by
  rw [zeroOf, beq_iff_eq, ← BitVec.toNat_inj]; rfl

theorem negativeOf_iff (r : Byte) : negativeOf r = true ↔ 128 ≤ r.toNat := by
  rw [negativeOf, getLsbD_seven, decide_eq_true_iff]

/-- One binary stage as a number: the sum modulo 256 and whether it reaches 256 (41_adc.md R141). -/
theorem binaryAdd_spec (a b : Byte) :
    (binaryAdd a b).result.toNat = (a.toNat + b.toNat) % 256 ∧ (binaryAdd a b).carry = decide (256 ≤ a.toNat + b.toNat) := by
  have ha := a.isLt
  have hb := b.isLt
  have h : (a.setWidth 9 + b.setWidth 9).toNat = a.toNat + b.toNat := by simp [BitVec.toNat_add]; omega
  constructor
  · simp [binaryAdd, h]
  · show (a.setWidth 9 + b.setWidth 9).getLsbD 8 = _
    rw [← BitVec.testBit_toNat, h, Nat.testBit_eq_decide_div_mod_eq]
    simp; omega

/-- Both stages of the decimal digit correction (41_adc.md R140). -/
theorem correctDigit_eq (n : Nat) : correctDigit n = (if 9 < n then n - 10 else n, if 9 < n then 1 else 0) := by
  unfold correctDigit; split <;> rfl

/-- `BcdAdd` as numbers, for every pair of bytes (41_adc.md R140, R148). -/
theorem bcdAdd_spec (a b : Byte) :
    let low := correctDigit (a.toNat % 16 + b.toNat % 16)
    let high := correctDigit (a.toNat / 16 + b.toNat / 16 + low.2)
    (bcdAdd a b).result.toNat = high.1 % 16 * 16 + low.1 % 16 ∧ (bcdAdd a b).carry = decide (high.2 = 1) := by
  simp only [bcdAdd, lowNibble_toNat, highNibble_toNat]
  constructor
  · rw [BitVec.toNat_append, ← Nat.shiftLeft_add_eq_or_of_lt (BitVec.isLt _)]
    simp [Nat.shiftLeft_eq]
  · rfl

/-- The result and the carry out of ASL as numbers (42_and_asl_bit.md R180, R181). -/
theorem shiftLeft_spec (v : Byte) :
    (shiftLeft v).result.toNat = 2 * v.toNat % 256 ∧ (shiftLeft v).carry = decide (128 ≤ v.toNat) := by
  constructor
  · simp [shiftLeft, BitVec.toNat_shiftLeft, Nat.shiftLeft_eq, Nat.mul_comm]
  · exact getLsbD_seven v

/-- Both binary stages together are one addition with carry in, and the OR of their carries is its carry out (41_adc.md R143). -/
theorem twoStage_binaryAdd_spec (a m : Byte) (cin : Bool) :
    (twoStage binaryAdd a m cin).result.toNat = (a.toNat + m.toNat + cin.toNat) % 256 ∧
    ((twoStage binaryAdd a m cin).carry = true ↔ a.toNat + m.toNat + cin.toNat ≥ 256) := by
  obtain ⟨hr1, hc1⟩ := binaryAdd_spec a m
  obtain ⟨hr2, hc2⟩ := binaryAdd_spec (binaryAdd a m).result (carryByte cin)
  have ha := a.isLt
  have hm := m.isLt
  have hc := Bool.toNat_le cin
  rw [carryByte_toNat, hr1] at hr2 hc2
  constructor
  · simp only [twoStage, hr2]; omega
  · simp only [twoStage, hc1, hc2, Bool.or_eq_true, decide_eq_true_iff]; omega

/-- The overflow formula says: operands of one sign, result of the other (41_adc.md R145). -/
theorem overflowOf_iff (a m r : Byte) :
    overflowOf a m r = true ↔ (a.toNat ≥ 128 ↔ m.toNat ≥ 128) ∧ ¬(r.toNat ≥ 128 ↔ a.toNat ≥ 128) := by
  rw [overflowOf, BitVec.getLsbD_and, BitVec.getLsbD_xor, BitVec.getLsbD_xor, getLsbD_seven, getLsbD_seven, getLsbD_seven]
  by_cases h1 : 128 ≤ a.toNat <;> by_cases h2 : 128 ≤ m.toNat <;> by_cases h3 : 128 ≤ r.toNat <;> simp [h1, h2, h3]

end Sys2Proof.Machine
end

