-- ==== Sys2Proof/Laws/Operands.lean ====
section
/-! SUPPORT. What the resolver's shared parts compute, as numbers. -/

namespace Sys2Proof.Machine

/-- A zero-page address as a number's address. -/
theorem zext16_eq_ofNat (b : Byte) : zext16 b = BitVec.ofNat 16 b.toNat := by
  apply BitVec.eq_of_toNat_eq
  have := b.isLt
  rw [zext16_toNat, BitVec.toNat_ofNat]; omega

/-- Indexing: the sum modulo 65,536, the cross as the low-byte overflow, and the cross as a change of the high byte (40_addressing.md R116, R125). -/
theorem indexed_spec (base : Addr) (index : Byte) :
    (indexed base index).ea.toNat = (base.toNat + index.toNat) % 65536 ∧
    ((indexed base index).pageCross = true ↔ base.toNat % 256 + index.toNat > 255) ∧
    (indexed base index).pageCross = (hiByte (indexed base index).ea != hiByte base) := by
  have hi := index.isLt
  have hb := base.isLt
  have hcross : (indexed base index).pageCross = true ↔ base.toNat % 256 + index.toNat > 255 := by simp [indexed, loByte_toNat]
  have hea : (indexed base index).ea.toNat = (base.toNat + index.toNat) % 65536 := by
    simp [indexed, BitVec.toNat_add, zext16_toNat]
  refine ⟨hea, hcross, ?_⟩
  have hhi : hiByte (indexed base index).ea ≠ hiByte base ↔ base.toNat % 256 + index.toNat > 255 := by
    rw [Ne, ← BitVec.toNat_inj, hiByte_toNat, hiByte_toNat, hea]; omega
  rw [Bool.eq_iff_iff, hcross, bne_iff_ne, hhi]

/-- The pointer as a number: low byte at `p`, high byte at `(p + 1) mod 256` (20_memory.md R55). -/
theorem readPointer_spec (p : Byte) (s : State) :
    (readPointer p s).toNat = (s.readByte (zext16 (p + 1#8))).toNat * 256 + (s.readByte (zext16 p)).toNat :=
  pair_toNat _ _

end Sys2Proof.Machine
end

