-- ==== Sys2Proof/Laws/PerInstr.lean ====
section
/-! SUPPORT. Statements made per instruction: for each family its Statement and one lemma per constructor of Instr. -/

namespace Sys2Proof.Laws.Shape

/-- The syntax of an instruction hangs together: it is a pair the core has (30_encoding.md R88), its opcode byte dispatches to that pair (R90), and it has as many operand bytes as its mode
consumes (R81). -/
def Statement (i : Instr) : Prop :=
  i.wellFormed = true ∧ dispatch (opcodeOf i) = some (i.mnemonic, i.mode) ∧ (operandsOf i).length = i.mode.operandBytes

theorem adcImm (v : Byte) : Statement (.adcImm v) := ⟨rfl, rfl, rfl⟩
theorem adcZp (v : Byte) : Statement (.adcZp v) := ⟨rfl, rfl, rfl⟩
theorem adcZpX (v : Byte) : Statement (.adcZpX v) := ⟨rfl, rfl, rfl⟩
theorem adcAbs (v : Addr) : Statement (.adcAbs v) := ⟨rfl, rfl, rfl⟩
theorem adcAbsX (v : Addr) : Statement (.adcAbsX v) := ⟨rfl, rfl, rfl⟩
theorem adcAbsY (v : Addr) : Statement (.adcAbsY v) := ⟨rfl, rfl, rfl⟩
theorem adcIndX (v : Byte) : Statement (.adcIndX v) := ⟨rfl, rfl, rfl⟩
theorem adcIndY (v : Byte) : Statement (.adcIndY v) := ⟨rfl, rfl, rfl⟩
theorem andImm (v : Byte) : Statement (.andImm v) := ⟨rfl, rfl, rfl⟩
theorem andZp (v : Byte) : Statement (.andZp v) := ⟨rfl, rfl, rfl⟩
theorem andZpX (v : Byte) : Statement (.andZpX v) := ⟨rfl, rfl, rfl⟩
theorem andAbs (v : Addr) : Statement (.andAbs v) := ⟨rfl, rfl, rfl⟩
theorem andAbsX (v : Addr) : Statement (.andAbsX v) := ⟨rfl, rfl, rfl⟩
theorem andAbsY (v : Addr) : Statement (.andAbsY v) := ⟨rfl, rfl, rfl⟩
theorem andIndX (v : Byte) : Statement (.andIndX v) := ⟨rfl, rfl, rfl⟩
theorem andIndY (v : Byte) : Statement (.andIndY v) := ⟨rfl, rfl, rfl⟩
theorem aslAcc : Statement (.aslAcc) := ⟨rfl, rfl, rfl⟩
theorem aslZp (v : Byte) : Statement (.aslZp v) := ⟨rfl, rfl, rfl⟩
theorem aslZpX (v : Byte) : Statement (.aslZpX v) := ⟨rfl, rfl, rfl⟩
theorem aslAbs (v : Addr) : Statement (.aslAbs v) := ⟨rfl, rfl, rfl⟩
theorem aslAbsX (v : Addr) : Statement (.aslAbsX v) := ⟨rfl, rfl, rfl⟩
theorem bitZp (v : Byte) : Statement (.bitZp v) := ⟨rfl, rfl, rfl⟩
theorem bitAbs (v : Addr) : Statement (.bitAbs v) := ⟨rfl, rfl, rfl⟩
theorem bpl (v : Byte) : Statement (.bpl v) := ⟨rfl, rfl, rfl⟩
theorem bmi (v : Byte) : Statement (.bmi v) := ⟨rfl, rfl, rfl⟩
theorem bcc (v : Byte) : Statement (.bcc v) := ⟨rfl, rfl, rfl⟩
theorem bcs (v : Byte) : Statement (.bcs v) := ⟨rfl, rfl, rfl⟩
theorem bne (v : Byte) : Statement (.bne v) := ⟨rfl, rfl, rfl⟩
theorem beq (v : Byte) : Statement (.beq v) := ⟨rfl, rfl, rfl⟩

end Sys2Proof.Laws.Shape
end

