-- ==== Sys2Proof/Laws/Step.lean ====
section
/-! SUPPORT. What one step can do. -/

namespace Sys2Proof.Machine

theorem step_of_fetch {s : State} {i : Instr} (h : fetchInstr s = some i) : step s = exec i s := by
  simp [step, h]

theorem step_of_no_fetch {s : State} (h : fetchInstr s = none) : step s = .fault (.unsupportedInstruction (fetchOpcode s)) := by
  simp [step, h, raiseUnsupported]

/-- An instruction always answers a next state. -/
theorem exec_completes (i : Instr) (s : State) : ∃ t, exec i s = .next t := by
  rcases exec_kinds i s with ⟨hi, m, hm⟩ | ⟨hi, m, hm⟩ | ⟨hi, m, hm⟩ | ⟨hi, r, hr⟩ | rfl | ⟨c, rel, hb⟩
  · exact ⟨_, exec_adc hi hm⟩
  · exact ⟨_, exec_and hi hm⟩
  · exact ⟨_, exec_bit hi hm⟩
  · exact ⟨_, exec_aslMem hi hr⟩
  · exact ⟨_, exec_aslAcc s⟩
  · exact ⟨_, exec_branch hb⟩

/-- A step that answers a next state ran the instruction at PC. -/
theorem step_next_iff {s t : State} : step s = .next t ↔ ∃ i, fetchInstr s = some i ∧ exec i s = .next t := by
  cases h : fetchInstr s with
  | none => simp [step, h, raiseUnsupported]
  | some i => simp [step, h]

/-- The fetch fails exactly when the opcode byte has no entry. -/
theorem fetchInstr_eq_none_iff {s : State} : fetchInstr s = none ↔ dispatch (fetchOpcode s) = none := by
  unfold fetchInstr decodeInstr
  cases h : dispatch (fetchOpcode s) with
  | none => simp
  | some p =>
    obtain ⟨i, hi, -⟩ := assemble_of_dispatch (op := fetchOpcode s) (mn := p.1) (md := p.2) h (fetchB1 s) (fetchB2 s)
    simp [hi]

/-- The report of a step that ran an instruction. -/
theorem stepReport_of_fetch {s t : State} {i : Instr} (h : fetchInstr s = some i) (he : exec i s = .next t) :
    stepReport s = ⟨t, .executed (cyclesOf i s)⟩ := by
  simp [stepReport, h, he]

theorem stepReport_of_no_fetch {s : State} (h : fetchInstr s = none) : stepReport s = ⟨s, .unsupported (fetchOpcode s)⟩ := by
  simp [stepReport, h]

/-- The one inversion of a step: it raised the exception and changed nothing, or it ran the instruction at PC. -/
theorem step_cases (s : State) :
    (fetchInstr s = none ∧ step s = .fault (.unsupportedInstruction (fetchOpcode s)) ∧
      stepReport s = ⟨s, .unsupported (fetchOpcode s)⟩) ∨
    ∃ i t, fetchInstr s = some i ∧ exec i s = .next t ∧ step s = .next t ∧ stepReport s = ⟨t, .executed (cyclesOf i s)⟩ := by
  cases hf : fetchInstr s with
  | none => exact .inl ⟨rfl, step_of_no_fetch hf, stepReport_of_no_fetch hf⟩
  | some i =>
    obtain ⟨t, ht⟩ := exec_completes i s
    exact .inr ⟨i, t, rfl, ht, (step_of_fetch hf).trans ht, stepReport_of_fetch hf ht⟩

/-- An unsupported opcode byte is one whose fetch fails. -/
theorem not_supported_iff (s : State) : Supported (s.readByte s.pc) = false ↔ fetchInstr s = none := by
  rw [fetchInstr_eq_none_iff]; simp [Supported, fetchOpcode]

theorem run_succ_of_next {s u : State} (n : Nat) (h : step s = .next u) : core.run (n + 1) s = core.run n u := by
  have h' : core.step s = .next u := h
  simp [Host.Core.run, h']

theorem run_succ_of_fault {s : State} {f : Fault} (n : Nat) (h : step s = .fault f) : core.run (n + 1) s = .fault f := by
  have h' : core.step s = .fault f := h
  simp [Host.Core.run, h']

/-- A reflexive relation that every step extends backwards holds between the ends of every run. -/
theorem run_induction {P : State → State → Prop} (refl : ∀ s, P s s) (trans : ∀ s u t, step s = .next u → P u t → P s t)
    {n : Nat} {s t : State} (h : core.run n s = .next t) : P s t := by
  induction n generalizing s with
  | zero => cases h; exact refl _
  | succ n ih =>
    rcases step_cases s with ⟨-, hs, -⟩ | ⟨i, u, -, -, hs, -⟩
    · rw [run_succ_of_fault n hs] at h; cases h
    · exact trans s u t hs (ih (by rw [← run_succ_of_next n hs]; exact h))

/-- The writes of a list of accesses leave every address alone that none of them stores to. -/
theorem applyWrites_read_of_not_stores {addr : Addr} {l : List Access} (m : Memory) (h : l.any (Access.stores addr) = false) :
    (applyWrites l m).read addr = m.read addr := by
  induction l generalizing m with
  | nil => rfl
  | cons access rest ih =>
    rw [List.any_cons, Bool.or_eq_false_iff] at h
    cases access with
    | read k => exact ih m h.2
    | write k v =>
      have hk : addr ≠ k := fun e => by simp [Access.stores, e] at h
      rw [applyWrites, ih _ h.2, Memory.read_write_ne m v hk]

/-- What memory holds at an address is what a fetch from it gives, in each of the three places of an instruction. -/
theorem fetchGives_of_readByte {addr : Addr} {v : Byte} {s : State} (h : s.readByte addr = v) : FetchGives addr v s :=
  ⟨fun e => by rw [fetchOpcode, e, h], fun e => by rw [fetchB1, e, h], fun e => by rw [fetchB2, e, h]⟩

end Sys2Proof.Machine
end

