-- ==== Sys2Proof/Tests/Slice0.lean ====
section
/-! SUPPORT. The model's own tests. Expected results are the spec's worked examples and tables (95_test_vectors.md, the examples of the form rules), never the model's answers; and for every obligation with
hypotheses, a concrete state and operands that meet them. -/

namespace Sys2Proof.Tests

open Sys2Proof.Machine

/-! ## Well-formedness: a pair outside the table for each mnemonic is refused (30_encoding.md R88, R89), each form is accepted -/

theorem test_illformed_pairs_refused :
    validPair .adc .accumulator = false ∧ validPair .and .relative = false ∧ validPair .asl .absoluteY = false ∧
    validPair .asl .immediate = false ∧ validPair .bit .immediate = false ∧ validPair .bit .absoluteX = false ∧
    validPair .bpl .immediate = false ∧ validPair .bmi .zeroPage = false ∧ validPair .bcc .absolute = false ∧
    validPair .bcs .accumulator = false ∧ validPair .bne .zeroPageX = false ∧ validPair .beq .zeroPageIndirectY = false := by decide

theorem test_illformed_pairs_assemble_to_nothing :
    assemble .bit .immediate 0x10#8 0x00#8 = none ∧ assemble .asl .absoluteY 0x10#8 0x00#8 = none ∧
    assemble .adc .accumulator 0x10#8 0x00#8 = none ∧ assemble .bne .zeroPage 0x10#8 0x00#8 = none := by decide

theorem test_forms_wellformed :
    (Instr.adcImm 0xFF#8).wellFormed = true ∧ (Instr.aslAcc).wellFormed = true ∧ (Instr.bitAbs 0xFFFF#16).wellFormed = true ∧
    (Instr.beq 0x80#8).wellFormed = true := by decide

/-! ## Decoding: every constructor from its word, written bit by bit from the "binary" column of 30_encoding.md R90 -/

theorem test_decode_adc :
    decode [0b01101001#8, 0x10#8] = .instr (.adcImm 0x10#8) [] ∧
    decode [0b01100101#8, 0x80#8] = .instr (.adcZp 0x80#8) [] ∧
    decode [0b01110101#8, 0xFF#8] = .instr (.adcZpX 0xFF#8) [] ∧
    decode [0b01101101#8, 0x34#8, 0x12#8] = .instr (.adcAbs 0x1234#16) [] ∧
    decode [0b01111101#8, 0xFF#8, 0x00#8] = .instr (.adcAbsX 0x00FF#16) [] ∧
    decode [0b01111001#8, 0xF0#8, 0x12#8] = .instr (.adcAbsY 0x12F0#16) [] ∧
    decode [0b01100001#8, 0x20#8] = .instr (.adcIndX 0x20#8) [] ∧
    decode [0b01110001#8, 0x86#8] = .instr (.adcIndY 0x86#8) [] := by decide

theorem test_decode_and :
    decode [0b00101001#8, 0x0F#8] = .instr (.andImm 0x0F#8) [] ∧
    decode [0b00100101#8, 0x80#8] = .instr (.andZp 0x80#8) [] ∧
    decode [0b00110101#8, 0xF0#8] = .instr (.andZpX 0xF0#8) [] ∧
    decode [0b00101101#8, 0x34#8, 0x12#8] = .instr (.andAbs 0x1234#16) [] ∧
    decode [0b00111101#8, 0x80#8, 0x20#8] = .instr (.andAbsX 0x2080#16) [] ∧
    decode [0b00111001#8, 0x00#8, 0x20#8] = .instr (.andAbsY 0x2000#16) [] ∧
    decode [0b00100001#8, 0xFE#8] = .instr (.andIndX 0xFE#8) [] ∧
    decode [0b00110001#8, 0x20#8] = .instr (.andIndY 0x20#8) [] := by decide

theorem test_decode_asl_bit :
    decode [0b00001010#8, 0x77#8] = .instr .aslAcc [0x77#8] ∧
    decode [0b00000110#8, 0x10#8] = .instr (.aslZp 0x10#8) [] ∧
    decode [0b00010110#8, 0x80#8] = .instr (.aslZpX 0x80#8) [] ∧
    decode [0b00001110#8, 0x00#8, 0x30#8] = .instr (.aslAbs 0x3000#16) [] ∧
    decode [0b00011110#8, 0xFF#8, 0x30#8] = .instr (.aslAbsX 0x30FF#16) [] ∧
    decode [0b00100100#8, 0x10#8] = .instr (.bitZp 0x10#8) [] ∧
    decode [0b00101100#8, 0x00#8, 0x40#8] = .instr (.bitAbs 0x4000#16) [] := by decide

theorem test_decode_branches :
    decode [0b00010000#8, 0x05#8] = .instr (.bpl 0x05#8) [] ∧
    decode [0b00110000#8, 0xFB#8] = .instr (.bmi 0xFB#8) [] ∧
    decode [0b10010000#8, 0x7F#8] = .instr (.bcc 0x7F#8) [] ∧
    decode [0b10110000#8, 0x10#8] = .instr (.bcs 0x10#8) [] ∧
    decode [0b11010000#8, 0xFC#8] = .instr (.bne 0xFC#8) [] ∧
    decode [0b11110000#8, 0x80#8] = .instr (.beq 0x80#8) [] := by decide

/-- 30_encoding.md R93, 95_test_vectors.md T6: BRK, NOP, BVC, BVS, LDA are rejected by name; so is a list that ends inside an instruction. -/
theorem test_decode_rejections :
    decode [0x00#8, 0x00#8] = .unsupported 0x00#8 ∧ decode [0xEA#8] = .unsupported 0xEA#8 ∧
    decode [0x50#8, 0x02#8] = .unsupported 0x50#8 ∧ decode [0x70#8, 0x02#8] = .unsupported 0x70#8 ∧
    decode [0xA9#8, 0x55#8] = .unsupported 0xA9#8 ∧ decode [0x6D#8, 0x34#8] = .truncated 0x6D#8 ∧ decode [] = .noBytes := by decide

/-- The opcode table's numbering: opcode in bits 7..0, the next byte in bits 15..8; operand bits it does not give are zero. -/
theorem test_decode_table_word :
    decodeTableWord 24 0x12346D = some (.adcAbs 0x1234#16) ∧ decodeTableWord 16 0xFED0 = some (.bne 0xFE#8) ∧
    decodeTableWord 8 0x0A = some .aslAcc ∧ decodeTableWord 8 0x1E = some (.aslAbsX 0x0000#16) ∧ decodeTableWord 8 0xEA = none := by decide

/-- 30_encoding.md R97: the bytes of its examples. -/
theorem test_encode_examples :
    encode (.adcAbsX 0x1234#16) = [0x7D#8, 0x34#8, 0x12#8] ∧ encode (.andIndY 0x20#8) = [0x31#8, 0x20#8] ∧ encode .aslAcc = [0x0A#8] := by decide

/-! ## Steps. `boot pc bytes writes`: the reset state with the host's writes, the bytes at `pc`, and PC there -/

def boot (pc : Addr) (bytes : List Byte) (writes : List HostWrite) : State :=
  (layBytes bytes pc (transactAll (writes.map .write) State.reset)).setPC pc

/-- A, PC, the flags N V Z C and the cycle count after a step; none if it did not execute. -/
def seen (s : State) : Option (Byte × Addr × List Bool × Option Nat) :=
  match step s with
  | .next t => some (t.a, t.pc, [t.flagN, t.flagV, t.flagZ, t.flagC], stepCycles s)
  | .fault _ => none
  | .refused _ => none

/-- The byte at an address after a step. -/
def byteAfter (s : State) (addr : Addr) : Byte := (stepReport s).state.readByte addr

/-- 95_test_vectors.md T1 (80 + FF and FF + FF + 1) and T2 rows 8, 17. -/
theorem test_adc_imm_binary :
    seen (boot 0x0200#16 [0x69#8, 0xFF#8] [.a 0x80#8]) = some (0x7F#8, 0x0202#16, [false, true, false, true], some 2) ∧
    seen (boot 0x0200#16 [0x69#8, 0xFF#8] [.a 0xFF#8, .flagC true]) = some (0xFF#8, 0x0202#16, [true, false, false, true], some 2) := by decide

theorem test_adc_imm_decimal :
    seen (boot 0x0200#16 [0x69#8, 0x99#8] [.a 0x99#8, .flagC true, .flagD true]) = some (0x99#8, 0x0202#16, [true, false, false, true], some 2) ∧
    seen (boot 0x0200#16 [0x69#8, 0x99#8] [.a 0x9A#8, .flagC true, .flagD true]) = some (0x00#8, 0x0202#16, [false, true, true, true], some 2) := by decide

/-- 41_adc.md R151. -/
theorem test_adc_zp :
    seen (boot 0x0200#16 [0x65#8, 0x80#8] [.a 0x01#8, .flagC true, .memory 0x0080#16 0x7F#8]) =
      some (0x81#8, 0x0202#16, [true, true, false, false], some 3) := by decide

/-- 95_test_vectors.md T5 row 1: the zero-page sum wraps, 0x0101 is not read. -/
theorem test_adc_zpx_wraps :
    seen (boot 0x0200#16 [0x75#8, 0xFF#8] [.a 0x05#8, .x 0x02#8, .memory 0x0001#16 0x03#8, .memory 0x0101#16 0x77#8]) =
      some (0x08#8, 0x0202#16, [false, false, false, false], some 4) := by decide

/-- 95_test_vectors.md T5 rows 10 and 11: the instruction straddles the top of memory. -/
theorem test_adc_abs_straddles_top :
    seen (boot 0xFFFF#16 [0x6D#8, 0x10#8, 0x00#8] [.a 0x01#8, .memory 0x0010#16 0x07#8]) =
      some (0x08#8, 0x0002#16, [false, false, false, false], some 4) ∧
    seen (boot 0xFFFE#16 [0x6D#8, 0x34#8, 0x12#8] [.a 0x01#8, .memory 0x1234#16 0x07#8]) =
      some (0x08#8, 0x0001#16, [false, false, false, false], some 4) := by decide

/-- 41_adc.md R154: without and with a page cross. -/
theorem test_adc_absx :
    seen (boot 0x0200#16 [0x7D#8, 0x00#8, 0x30#8] [.a 0x10#8, .x 0x05#8, .memory 0x3005#16 0x22#8]) =
      some (0x32#8, 0x0203#16, [false, false, false, false], some 4) ∧
    seen (boot 0x0200#16 [0x7D#8, 0xFF#8, 0x00#8] [.a 0x10#8, .x 0x01#8, .memory 0x0100#16 0x22#8]) =
      some (0x32#8, 0x0203#16, [false, false, false, false], some 5) := by decide

/-- 41_adc.md R155. -/
theorem test_adc_absy :
    seen (boot 0x0200#16 [0x79#8, 0xF0#8, 0x12#8] [.a 0x80#8, .y 0x20#8, .memory 0x1310#16 0x80#8]) =
      some (0x00#8, 0x0203#16, [false, true, true, true], some 5) := by decide

/-- 41_adc.md R156: the pointer at 0xFF takes its high byte from 0x0000. -/
theorem test_adc_indx :
    seen (boot 0x0200#16 [0x61#8, 0x20#8] [.a 0x01#8, .x 0x04#8, .memory 0x0024#16 0x74#8, .memory 0x0025#16 0x20#8, .memory 0x2074#16 0x02#8]) =
      some (0x03#8, 0x0202#16, [false, false, false, false], some 6) ∧
    seen (boot 0x0200#16 [0x61#8, 0xFE#8] [.a 0x01#8, .x 0x01#8, .memory 0x0000#16 0x30#8, .memory 0x3000#16 0x05#8, .memory 0x0100#16 0x99#8]) =
      some (0x06#8, 0x0202#16, [false, false, false, false], some 6) := by decide

/-- 41_adc.md R157, 95_test_vectors.md T5 rows 3 and 15. -/
theorem test_adc_indy :
    seen (boot 0x0200#16 [0x71#8, 0x86#8] [.a 0x01#8, .y 0x10#8, .memory 0x0086#16 0xF8#8, .memory 0x0087#16 0x40#8, .memory 0x4108#16 0x05#8]) =
      some (0x06#8, 0x0202#16, [false, false, false, false], some 6) ∧
    seen (boot 0x0200#16 [0x71#8, 0xFF#8]
        [.a 0x01#8, .memory 0x00FF#16 0x34#8, .memory 0x0000#16 0x12#8, .memory 0x0100#16 0x56#8, .memory 0x1234#16 0x0A#8]) =
      some (0x0B#8, 0x0202#16, [false, false, false, false], some 5) := by decide

/-- 95_test_vectors.md T3a: V and C are kept. -/
theorem test_and_imm :
    seen (boot 0x0200#16 [0x29#8, 0x55#8] [.a 0xAA#8, .flagV true, .flagC true]) = some (0x00#8, 0x0202#16, [false, true, true, true], some 2) ∧
    seen (boot 0x0200#16 [0x29#8, 0x8F#8] [.a 0xF0#8, .flagV true, .flagC true]) = some (0x80#8, 0x0202#16, [true, true, false, true], some 2) := by decide

/-- 42_and_asl_bit.md R172 to R174. -/
theorem test_and_zp :
    seen (boot 0x0200#16 [0x25#8, 0x80#8] [.a 0xFF#8, .memory 0x0080#16 0x80#8]) = some (0x80#8, 0x0202#16, [true, false, false, false], some 3) := by decide

theorem test_and_zpx :
    seen (boot 0x0200#16 [0x35#8, 0xF0#8] [.a 0x3C#8, .x 0x20#8, .memory 0x0010#16 0x0F#8]) =
      some (0x0C#8, 0x0202#16, [false, false, false, false], some 4) := by decide

theorem test_and_abs :
    seen (boot 0x0200#16 [0x2D#8, 0x34#8, 0x12#8] [.a 0xAA#8, .memory 0x1234#16 0x55#8]) =
      some (0x00#8, 0x0203#16, [false, false, true, false], some 4) := by decide

/-- 42_and_asl_bit.md R175: crossing at X = 0x80, not at 0x7F. -/
theorem test_and_absx :
    seen (boot 0x0200#16 [0x3D#8, 0x80#8, 0x20#8] [.a 0xFF#8, .x 0x80#8, .memory 0x2100#16 0x7E#8]) =
      some (0x7E#8, 0x0203#16, [false, false, false, false], some 5) ∧
    seen (boot 0x0200#16 [0x3D#8, 0x80#8, 0x20#8] [.a 0xFF#8, .x 0x7F#8, .memory 0x20FF#16 0x7E#8]) =
      some (0x7E#8, 0x0203#16, [false, false, false, false], some 4) := by decide

/-- 42_and_asl_bit.md R176: the wrap past 0xFFFF crosses. -/
theorem test_and_absy :
    seen (boot 0x0200#16 [0x39#8, 0x00#8, 0x20#8] [.a 0xF0#8, .y 0xFF#8, .memory 0x20FF#16 0x9F#8]) =
      some (0x90#8, 0x0203#16, [true, false, false, false], some 4) ∧
    seen (boot 0x0200#16 [0x39#8, 0xFF#8, 0xFF#8] [.a 0xF0#8, .y 0x02#8, .memory 0x0001#16 0x3C#8]) =
      some (0x30#8, 0x0203#16, [false, false, false, false], some 5) := by decide

/-- 95_test_vectors.md T5 row 5. -/
theorem test_and_indx :
    seen (boot 0x0200#16 [0x21#8, 0xFE#8] [.a 0xFF#8, .x 0x01#8, .memory 0x0000#16 0x30#8, .memory 0x0100#16 0x99#8, .memory 0x3000#16 0xA5#8]) =
      some (0xA5#8, 0x0202#16, [true, false, false, false], some 6) := by decide

/-- 42_and_asl_bit.md R178. -/
theorem test_and_indy :
    seen (boot 0x0200#16 [0x31#8, 0x20#8] [.a 0xC3#8, .y 0x01#8, .memory 0x0020#16 0xFF#8, .memory 0x0021#16 0x12#8, .memory 0x1300#16 0x81#8]) =
      some (0x81#8, 0x0202#16, [true, false, false, false], some 6) := by decide

/-- 42_and_asl_bit.md R183: the old carry is not shifted in. -/
theorem test_asl_acc :
    seen (boot 0x0200#16 [0x0A#8] [.a 0x80#8]) = some (0x00#8, 0x0201#16, [false, false, true, true], some 2) ∧
    seen (boot 0x0200#16 [0x0A#8] [.a 0x00#8, .flagC true, .flagN true]) = some (0x00#8, 0x0201#16, [false, false, true, false], some 2) := by decide

/-- 42_and_asl_bit.md R184: A is kept. -/
theorem test_asl_zp :
    let s := boot 0x0200#16 [0x06#8, 0x10#8] [.a 0x77#8, .memory 0x0010#16 0x55#8]
    seen s = some (0x77#8, 0x0202#16, [true, false, false, false], some 5) ∧ byteAfter s 0x0010#16 = 0xAA#8 := by decide

/-- 42_and_asl_bit.md R185: the wrap leaves 0x0110 alone. -/
theorem test_asl_zpx :
    let s := boot 0x0200#16 [0x16#8, 0x80#8] [.x 0x90#8, .memory 0x0010#16 0xC0#8, .memory 0x0110#16 0x11#8]
    seen s = some (0x00#8, 0x0202#16, [true, false, false, true], some 6) ∧ byteAfter s 0x0010#16 = 0x80#8 ∧
      byteAfter s 0x0110#16 = 0x11#8 := by decide

/-- 95_test_vectors.md T5 row 16: an instruction that shifts its own opcode byte completes as fetched. -/
theorem test_asl_abs_own_opcode :
    let s := boot 0x0200#16 [0x0E#8, 0x00#8, 0x02#8] []
    seen s = some (0x00#8, 0x0203#16, [false, false, false, false], some 6) ∧ byteAfter s 0x0200#16 = 0x1C#8 := by decide

/-- 42_and_asl_bit.md R187: seven cycles with and without a cross. -/
theorem test_asl_absx_cross :
    let s := boot 0x0200#16 [0x1E#8, 0xFF#8, 0x30#8] [.x 0x01#8, .memory 0x3100#16 0x40#8]
    seen s = some (0x00#8, 0x0203#16, [true, false, false, false], some 7) ∧ byteAfter s 0x3100#16 = 0x80#8 := by decide

theorem test_asl_absx_no_cross :
    let s := boot 0x0200#16 [0x1E#8, 0x00#8, 0x30#8] [.x 0x01#8, .memory 0x3001#16 0x81#8]
    seen s = some (0x00#8, 0x0203#16, [false, false, false, true], some 7) ∧ byteAfter s 0x3001#16 = 0x02#8 := by decide

/-- 95_test_vectors.md T3c rows 5 and 9. -/
theorem test_bit_zp :
    seen (boot 0x0200#16 [0x24#8, 0x10#8] [.a 0x01#8, .flagC true, .memory 0x0010#16 0xC0#8]) =
      some (0x01#8, 0x0202#16, [true, true, true, true], some 3) ∧
    seen (boot 0x0200#16 [0x24#8, 0x10#8] [.a 0x0F#8, .flagC true, .memory 0x0010#16 0x3F#8]) =
      some (0x0F#8, 0x0202#16, [false, false, false, true], some 3) := by decide

/-- 42_and_asl_bit.md R191. -/
theorem test_bit_abs :
    seen (boot 0x0200#16 [0x2C#8, 0x00#8, 0x40#8] [.a 0xFF#8, .memory 0x4000#16 0x40#8]) =
      some (0xFF#8, 0x0203#16, [false, true, false, false], some 4) := by decide

/-- PC and cycles after a step. -/
def landed (s : State) : Option (Addr × Option Nat) := (seen s).map (fun r => (r.2.1, r.2.2.2))

/-! 95_test_vectors.md T4. -/

theorem test_bpl :
    landed (boot 0x0200#16 [0x10#8, 0x05#8] []) = some (0x0207#16, some 3) ∧
    landed (boot 0x0200#16 [0x10#8, 0x05#8] [.flagN true]) = some (0x0202#16, some 2) := by decide

theorem test_bmi :
    landed (boot 0x0200#16 [0x30#8, 0xFB#8] [.flagN true]) = some (0x01FD#16, some 4) ∧
    landed (boot 0x0200#16 [0x30#8, 0xFB#8] []) = some (0x0202#16, some 2) := by decide

theorem test_bcc :
    landed (boot 0x02F0#16 [0x90#8, 0x7F#8] []) = some (0x0371#16, some 4) ∧
    landed (boot 0x02F0#16 [0x90#8, 0x7F#8] [.flagC true]) = some (0x02F2#16, some 2) := by decide

theorem test_bcs_wraps :
    landed (boot 0xFFF8#16 [0xB0#8, 0x10#8] [.flagC true]) = some (0x000A#16, some 4) ∧
    landed (boot 0xFFFF#16 [0xB0#8, 0x04#8] [.flagC true]) = some (0x0005#16, some 3) := by decide

theorem test_bne_page_edge :
    landed (boot 0x02FE#16 [0xD0#8, 0xFE#8] []) = some (0x02FE#16, some 4) ∧
    landed (boot 0x02FE#16 [0xD0#8, 0x00#8] []) = some (0x0300#16, some 3) ∧
    landed (boot 0x02FD#16 [0xD0#8, 0x01#8] []) = some (0x0300#16, some 4) := by decide

theorem test_beq :
    landed (boot 0x0010#16 [0xF0#8, 0x80#8] [.flagZ true]) = some (0xFF92#16, some 4) ∧
    landed (boot 0x0200#16 [0xF0#8, 0x00#8] [.flagZ true]) = some (0x0202#16, some 3) ∧
    landed (boot 0x0200#16 [0xF0#8, 0x7F#8] []) = some (0x0202#16, some 2) := by decide

/-- 95_test_vectors.md T6 rows 1 and 3. -/
theorem test_unsupported_opcode :
    let s := boot 0x0200#16 [0xEA#8] [.a 0x12#8, .flagC true]
    stepReport s = ⟨s, .unsupported 0xEA#8⟩ ∧ stepCycles s = none ∧ stepAccesses s = [.read 0x0200#16] := by decide

/-- 95_test_vectors.md T5 rows 3, 6 and 8: the accesses in order. -/
theorem test_accesses :
    stepAccesses (boot 0x0200#16 [0x71#8, 0xFF#8] [.memory 0x00FF#16 0x34#8, .memory 0x0000#16 0x12#8]) =
      [.read 0x0200#16, .read 0x0201#16, .read 0x00FF#16, .read 0x0000#16, .read 0x1234#16] ∧
    stepAccesses (boot 0x0200#16 [0x1E#8, 0xFF#8, 0x30#8] [.x 0x01#8, .memory 0x3100#16 0x40#8]) =
      [.read 0x0200#16, .read 0x0201#16, .read 0x0202#16, .read 0x3100#16, .write 0x3100#16 0x80#8] ∧
    stepAccesses (boot 0x0200#16 [0x0A#8] [.a 0x81#8]) = [.read 0x0200#16] := by decide

/-- The load of a program: from reset, the very next step runs the word at PC 0x0000 (log 17). -/
theorem test_with_fetch_word :
    seen (State.reset.withFetchWord 16 0x0769) = some (0x07#8, 0x0002#16, [false, false, false, false], some 2) ∧
    seen (State.reset.withFetchWord 8 0x0E) = some (0x00#8, 0x0003#16, [false, false, false, false], some 6) ∧
    (State.reset.withFetchWord 8 0x0A).mem = ⟨[(0, 0x0A#8)]⟩ := by decide

/-! ## Witnesses: for each obligation with hypotheses, a state and operands that meet them all -/

theorem witness_DecodeOfEncodeGivesTheInstructionBack : (Instr.adcAbs 0xFFFF#16).wellFormed = true ∧ Instr.aslAcc.wellFormed = true := by decide

theorem witness_DecodedBytesAreTheEncoding : decode [0x79#8, 0xFF#8, 0x00#8, 0x42#8] = .instr (.adcAbsY 0x00FF#16) [0x42#8] := by decide

theorem witness_TwentyNineOpcodes : validPair .asl .accumulator = true ∧ validPair .beq .relative = true := by decide

theorem witness_OnlyOpcodesOutsideTheTableFault :
    dispatch 0xF0#8 = some (.beq, .relative) ∧ step State.reset = .fault (.unsupportedInstruction 0x00#8) := ⟨rfl, rfl⟩

/-- A state with code and data in memory, flags and registers set, canonical, and not the reset state. -/
def busy : State :=
  boot 0xFFFF#16 [0x1E#8, 0xFF#8, 0xFF#8] [.a 0x99#8, .x 0xFF#8, .y 0x01#8, .flagC true, .flagD true, .memory 0x00FE#16 0x40#8]

theorem witness_canonical : busy.Inv ∧ State.reset.Inv ∧ busy.mem.cells.length = 4 := by unfold State.Inv; decide

theorem witness_StepKeepsCanonicalMemory : busy.Inv ∧ ∃ t, step busy = .next t := ⟨by unfold State.Inv; decide, ⟨_, rfl⟩⟩

theorem witness_CanonicalMemoriesReadingAlikeAreEqual :
    busy.mem.wf = true ∧ (busy.mem.write 0x1234#16 0x00#8).wf = true ∧
      ∀ addr : Addr, busy.mem.read addr = (busy.mem.write 0x1234#16 0x00#8).read addr :=
  ⟨by decide, by decide, fun _ => rfl⟩

theorem witness_MemWrite_asl_writes : ∃ t, exec (.aslZp 0x00#8) busy = .next t ∧ t.mem ≠ busy.mem := ⟨_, rfl, by decide⟩

/-- The pointer hypotheses at the boundary: `p = 0xFF`, high byte from 0x0000. -/
theorem witness_IndirectModes :
    busy.readByte (BitVec.ofNat 16 ((0xFF#8).toNat)) = 0x00#8 ∧
    busy.readByte (BitVec.ofNat 16 (((0xFF#8).toNat + 1) % 256)) = 0xFF#8 ∧
    busy.readByte (BitVec.ofNat 16 (((0xFF#8).toNat + busy.x.toNat) % 256)) = 0x40#8 ∧
    busy.readByte (BitVec.ofNat 16 (((0xFF#8).toNat + busy.x.toNat + 1) % 256)) = 0x00#8 := by decide

theorem witness_OnlyThreeModesReportAPageCross :
    pageCrossOf (.aslAbsX 0x0001#16) busy = true ∧ pageCrossOf (.adcAbsY 0x00FF#16) busy = true ∧ pageCrossOf (.andIndY 0x00#8) busy = true := by
  decide

/-- ADC in binary mode with every mode's operand. -/
theorem witness_adc_binary :
    State.reset.flagD = false ∧ (Instr.adcImm 0xFF#8).mnemonic = .adc ∧ operand (.adcImm 0xFF#8) State.reset = some 0xFF#8 ∧
    operand (.adcIndY 0xFF#8) State.reset = some 0x00#8 ∧ operand (.adcAbsX 0xFFFF#16) State.reset = some 0x00#8 := by decide

/-- ADC in decimal mode, with a decimal and with a non-decimal operand. -/
theorem witness_adc_decimal :
    busy.flagD = true ∧ (Instr.adcImm 0x99#8).mnemonic = .adc ∧ operand (.adcImm 0x99#8) busy = some 0x99#8 ∧
    operand (.adcImm 0xFF#8) busy = some 0xFF#8 := by decide

theorem witness_adc_decimal_digits : IsBcd busy.a ∧ IsBcd 0x99#8 ∧ IsBcd 0x00#8 ∧ ¬IsBcd 0x9A#8 := by unfold IsBcd; decide

theorem witness_and_and_bit :
    (Instr.andAbsX 0xFFFF#16).mnemonic = .and ∧ operand (.andAbsX 0xFFFF#16) busy = some 0x40#8 ∧ pageCrossOf (.andAbsX 0xFFFF#16) busy = true ∧
    (Instr.bitZp 0x00#8).mnemonic = .bit ∧ operand (.bitZp 0x00#8) busy = some 0xFF#8 := by decide

/-- The memory forms of ASL, past the top of memory and at its bottom. -/
theorem witness_asl_memory :
    busy.Inv ∧ (Instr.aslAbsX 0xFFFF#16).mnemonic = .asl ∧ resolve (.aslAbsX 0xFFFF#16) busy = some ⟨0x00FE#16, true⟩ ∧
    resolve (.aslZp 0x00#8) busy = some ⟨0x0000#16, false⟩ := by unfold State.Inv; decide

/-- The two displacements at the ends of the range, taken and not taken. -/
theorem witness_branches :
    (Instr.bcs 0x80#8).mode = .relative ∧ branchOf (.bcs 0x80#8) busy = some (true, 0x80#8) ∧ branchOf (.bcc 0x7F#8) busy = some (false, 0x7F#8) ∧
    (∃ t, exec (.bcs 0x80#8) busy = .next t) := ⟨rfl, rfl, rfl, ⟨_, rfl⟩⟩

theorem witness_StepRunsTheDecodedInstruction :
    decode [busy.readByte busy.pc, busy.readByte (busy.pc + 1#16), busy.readByte (busy.pc + 2#16)] = .instr (.aslAbsX 0xFFFF#16) [] := by decide

/-- The bytes of the instruction straddle the top of memory. -/
theorem witness_StepRunsTheEncodedInstruction : HoldsBytes (encode (.aslAbsX 0xFFFF#16)) busy.pc busy := by
  simp only [HoldsBytes, encode, opcodeOf, operandsOf]; decide

/-- Every row of the final-PC table is met: accumulator, two bytes, three bytes, branch not taken and taken, unsupported. -/
theorem witness_FinalPcOfEveryStep :
    fetchInstr (boot 0xFFFF#16 [0x0A#8] []) = some .aslAcc ∧
    fetchInstr (boot 0xFFFE#16 [0x69#8, 0x01#8] []) = some (.adcImm 0x01#8) ∧ fetchInstr busy = some (.aslAbsX 0xFFFF#16) ∧
    fetchInstr (boot 0xFFFF#16 [0xD0#8, 0x80#8] []) = some (.bne 0x80#8) ∧
    branchOf (.bne 0x80#8) (boot 0xFFFF#16 [0xD0#8, 0x80#8] []) = some (true, 0x80#8) ∧
    branchOf (.beq 0x80#8) (boot 0xFFFF#16 [0xF0#8, 0x80#8] []) = some (false, 0x80#8) ∧ fetchInstr State.reset = none := by decide

theorem witness_UnsupportedStep : Supported (State.reset.readByte State.reset.pc) = false := by decide

theorem witness_StepReportAgreesWithStep : (∃ t, step busy = .next t) ∧ ∃ n, stepCycles busy = some n := ⟨⟨_, rfl⟩, ⟨7, by decide⟩⟩

/-- Two states that differ in N only, for the clauses of ADC (equal C and D), AND, ASL, BIT, BCC, BCS, BEQ and BNE (equal C, equal Z). -/
theorem witness_FlagEffects :
    let s := busy.setN true
    (∃ t t', exec (.adcImm 0x01#8) s = .next t ∧ exec (.adcImm 0x01#8) busy = .next t') ∧ s ≠ busy ∧
    s.a = busy.a ∧ s.x = busy.x ∧ s.y = busy.y ∧ s.pc = busy.pc ∧ s.mem = busy.mem ∧ s.flagC = busy.flagC ∧ s.flagD = busy.flagD ∧
    s.flagZ = busy.flagZ := by
  refine ⟨⟨_, _, rfl, rfl⟩, by decide, rfl, rfl, rfl, rfl, rfl, rfl, rfl, rfl⟩

/-- Two states that differ in C and Z only, for the clause of BMI and BPL (equal N), and a step that faults. -/
theorem witness_FlagEffects_sign_branches_and_fault :
    let s := (busy.setC false).setZ true
    (∃ t t', exec (.bmi 0x80#8) s = .next t ∧ exec (.bmi 0x80#8) busy = .next t') ∧
    (∃ t t', exec (.bpl 0x80#8) s = .next t ∧ exec (.bpl 0x80#8) busy = .next t') ∧ s ≠ busy ∧
    s.a = busy.a ∧ s.x = busy.x ∧ s.y = busy.y ∧ s.pc = busy.pc ∧ s.mem = busy.mem ∧ s.flagN = busy.flagN ∧
    step State.reset = .fault (.unsupportedInstruction 0x00#8) := by
  refine ⟨⟨_, _, rfl, rfl⟩, ⟨_, _, rfl, rfl⟩, by decide, rfl, rfl, rfl, rfl, rfl, rfl, rfl⟩

theorem witness_NegativeAndZero :
    busy.Inv ∧ (∃ t, exec (.aslZp 0x00#8) busy = .next t) ∧ resolve (.aslZp 0x00#8) busy = some ⟨0x0000#16, false⟩ ∧
    (∃ t, exec (.bitZp 0x00#8) busy = .next t) ∧ operand (.bitZp 0x00#8) busy = some 0xFF#8 ∧
    (∃ t, exec (.adcImm 0x01#8) busy = .next t) ∧ (∃ t, exec (.beq 0x01#8) busy = .next t) :=
  ⟨by unfold State.Inv; decide, ⟨_, rfl⟩, by decide, ⟨_, rfl⟩, by decide, ⟨_, rfl⟩, ⟨_, rfl⟩⟩

/-- A run of two steps that both execute. -/
theorem witness_XYDecimalAndPlaceholderNeverChangeInARun : ∃ t, core.run 2 (boot 0x0200#16 [0x0A#8, 0x0A#8] [.x 0x07#8]) = .next t := ⟨_, rfl⟩

theorem witness_CyclesLieBetweenTwoAndSeven : stepCycles (boot 0x0200#16 [0x0A#8] []) = some 2 ∧ stepCycles busy = some 7 := by decide

/-- Each clause on two states that differ in all that it leaves free: a crossing form, two branches of different ways and displacements, and one instruction on states whose A, X, D and zero page differ but for the pointer's low byte. -/
theorem witness_CyclesDoNotDependOnData :
    (opcodeOf (.adcAbsX 0xFFFF#16) = opcodeOf (.adcAbsX 0x02FF#16) ∧
      pageCrossOf (.adcAbsX 0xFFFF#16) busy = pageCrossOf (.adcAbsX 0x02FF#16) (State.reset.setX 0x01#8)) ∧
    (branchOf (.bcs 0x80#8) busy = some (true, 0x80#8) ∧ branchOf (.bpl 0x7F#8) (State.reset.setPC 0x02F0#16) = some (true, 0x7F#8) ∧
      (busy.pc + 2#16 + (0x80#8).signExtend 16).toNat / 256 ≠ (busy.pc + 2#16).toNat / 256 ∧
      ((0x02F0#16 : Addr) + 2#16 + (0x7F#8).signExtend 16).toNat / 256 ≠ ((0x02F0#16 : Addr) + 2#16).toNat / 256) ∧
    let t := (((busy.setA 0x00#8).setX 0x10#8).setD false).writeByte 0x0090#16 0x55#8
    (Instr.adcIndY 0x00#8).mode = .zeroPageIndirectY ∧ busy.y = t.y ∧
      busy.readByte ((0x00#8).setWidth 16) = t.readByte ((0x00#8).setWidth 16) ∧
      busy.a ≠ t.a ∧ busy.x ≠ t.x ∧ busy.readByte 0x0090#16 ≠ t.readByte 0x0090#16 := by decide

/-- A host store under an operand byte at 0x0000 of the instruction at the top of memory, with a step and other writes in between, and a doubled byte that a later step fetches as its second operand byte. -/
theorem witness_FetchSeesEveryEarlierStore :
    let ts : List Transaction := [.step, .write (.a 0x01#8), .write (.pc 0xFFFF#16), .write (.memory 0x0002#16 0xEE#8)]
    busy.Inv ∧ leavesAlone 0x0000#16 ts (transact (.write (.memory 0x0000#16 0x34#8)) busy).1 = true ∧
    (transactAll (.write (.memory 0x0000#16 0x34#8) :: ts) busy).pc + 1#16 = 0x0000#16 ∧
    fetchInstr busy = some (.aslAbsX 0xFFFF#16) ∧ resolve (.aslAbsX 0xFFFF#16) busy = some ⟨0x00FE#16, true⟩ ∧
    leavesAlone 0x00FE#16 [.write (.pc 0x00FC#16)] (transact .step busy).1 = true ∧
    (transactAll [.step, .write (.pc 0x00FC#16)] busy).pc + 2#16 = 0x00FE#16 ∧
    Access.read 0xFFFF#16 ∈ (stepAccesses busy).dropLast := by unfold State.Inv; decide

/-- States that differ in a byte the step does not read. -/
theorem witness_StepDependsOnlyOnTheBytesItReads :
    let t := busy.writeByte 0x4000#16 0x55#8
    busy.Inv ∧ t.Inv ∧ SameRegisters busy t ∧ busy ≠ t ∧
    stepAccesses busy = [.read 0xFFFF#16, .read 0x0000#16, .read 0x0001#16, .read 0x00FE#16, .write 0x00FE#16 0x80#8] ∧
    busy.readByte 0xFFFF#16 = t.readByte 0xFFFF#16 ∧ busy.readByte 0x0000#16 = t.readByte 0x0000#16 ∧
    busy.readByte 0x0001#16 = t.readByte 0x0001#16 ∧ busy.readByte 0x00FE#16 = t.readByte 0x00FE#16 := by
  refine ⟨by unfold State.Inv; decide, by unfold State.Inv; decide, ⟨rfl, rfl, rfl, rfl, rfl, rfl, rfl, rfl, rfl, rfl⟩, by decide, by decide, ?_⟩
  decide

theorem witness_AdvanceAndWrap : (3 : Nat) ≤ 3 ∧ busy.pc = 0xFFFF#16 ∧ (boot 0xFFFE#16 [] []).pc = 0xFFFE#16 := by decide

end Sys2Proof.Tests
end

/-! PROOFS. The obligations of 10_state.md: the state after Reset (R41), and N and Z as functions of the byte that defines them (R36). -/

namespace Sys2Proof.Machine

/-! ## The state after Reset -/

@[simp] theorem State.readByte_reset (addr : Addr) : State.reset.readByte addr = 0x00#8 := rfl

/-- Settles O7: the registers and flags of the reset state are the literals of its definition, both halves of PC are those of 0x0000, and a memory that lists no cell reads 0x00 everywhere. -/
theorem resetIsAllZero : Obligations.ResetIsAllZero := by
  unfold Obligations.ResetIsAllZero
  have hpch : State.reset.pch = 0x00#8 := by decide
  have hpcl : State.reset.pcl = 0x00#8 := by decide
  exact ⟨rfl, rfl, rfl, rfl, hpch, hpcl, rfl, rfl, rfl, rfl, rfl, rfl, State.readByte_reset⟩

/-! ## N and Z after an instruction -/

/-- Every form of ADC and AND has an operand byte (41_adc.md R150 to R157, 42_and_asl_bit.md R171 to R178). -/
theorem operand_of_adc_or_and {i : Instr} (hi : i.mnemonic = .adc ∨ i.mnemonic = .and) (s : State) : ∃ m, operand i s = some m := by
  cases i <;> simp [Instr.mnemonic, operand, resolve, directOperand] at hi ⊢

/-- The instructions in Relative mode are the six branches (30_encoding.md R89). -/
theorem branchOf_of_relative {i : Instr} (hi : i.mode = .relative) (s : State) : ∃ c rel, branchOf i s = some (c, rel) := by
  cases i <;> simp [Instr.mode, branchOf] at hi ⊢

/-- The byte ASL leaves at its effective address is the shifted one. -/
theorem aslMem_readByte_ea {s : State} (r : Resolved) (h : s.Inv) :
    (aslMem r s).readByte r.ea = (shiftLeft (s.operandAt r)).result :=
  State.readByte_writeByte_eq r.ea _ (State.Inv.of_mem_eq h rfl)

/-- An instruction that writes A sets N and Z from the byte it leaves there, in decimal mode too (10_state.md R36, 41_adc.md R146). -/
theorem exec_flagNZ_of_accumulator {i : Instr} {s t : State} (h : exec i s = .next t)
    (hi : i.mnemonic = .adc ∨ i.mnemonic = .and ∨ i = .aslAcc) : t.flagN = negativeOf t.a ∧ t.flagZ = zeroOf t.a := by
  rcases hi with hadc | hand | rfl
  · obtain ⟨m, hm⟩ := operand_of_adc_or_and (.inl hadc) s
    rw [exec_adc hadc hm] at h
    cases h; simp
  · obtain ⟨m, hm⟩ := operand_of_adc_or_and (.inr hand) s
    rw [exec_and hand hm] at h
    cases h; simp
  · rw [exec_aslAcc] at h
    cases h; simp

/-- ASL on memory sets N and Z from the byte it writes, as it is read back (42_and_asl_bit.md R182). -/
theorem exec_flagNZ_of_aslMem {i : Instr} {s t : State} {r : Resolved} (h : exec i s = .next t) (hInv : s.Inv)
    (hi : i.mnemonic = .asl) (hr : resolve i s = some r) :
    t.flagN = negativeOf (t.readByte r.ea) ∧ t.flagZ = zeroOf (t.readByte r.ea) := by
  rw [exec_aslMem hi hr] at h
  cases h; simp [aslMem_readByte_ea r hInv]

/-- BIT takes N from the operand and Z from the operand masked with A (42_and_asl_bit.md R188). -/
theorem exec_flagNZ_of_bit {i : Instr} {s t : State} {m : Byte} (h : exec i s = .next t) (hi : i.mnemonic = .bit)
    (hm : operand i s = some m) : t.flagN = negativeOf m ∧ t.flagZ = zeroOf (s.a &&& m) := by
  rw [exec_bit hi hm] at h
  cases h; simp [negativeOf]

/-- A branch writes neither N nor Z (43_branches.md R208). -/
theorem exec_flagNZ_of_relative {i : Instr} {s t : State} (h : exec i s = .next t) (hi : i.mode = .relative) :
    t.flagN = s.flagN ∧ t.flagZ = s.flagZ := by
  obtain ⟨c, rel, hb⟩ := branchOf_of_relative hi s
  rw [exec_branch hb] at h
  cases h; simp

/-- N and Z said on numbers, each of the byte that defines it: BIT takes them from two (10_state.md R29, R30). -/
theorem flagNZ_iff {n z : Bool} {rN rZ : Byte} (h : n = negativeOf rN ∧ z = zeroOf rZ) :
    (n = true ↔ rN.toNat ≥ 128) ∧ (z = true ↔ rZ.toNat = 0) := by
  obtain ⟨rfl, rfl⟩ := h
  exact ⟨negativeOf_iff rN, zeroOf_iff rZ⟩

/-- Settles O43: each kind of instruction sets N and Z to `negativeOf` and `zeroOf` of the byte that defines them, and a branch leaves both as they were. -/
theorem negativeAndZeroReflectTheLastResult : Obligations.NegativeAndZeroReflectTheLastResult := by
  unfold Obligations.NegativeAndZeroReflectTheLastResult
  intro i s t hInv h
  refine ⟨fun hi => ?accumulator, fun r hi hr => ?aslMem, fun m hi hm => ?bit, exec_flagNZ_of_relative h⟩
  case accumulator => exact flagNZ_iff (exec_flagNZ_of_accumulator h hi)
  case aslMem => exact flagNZ_iff (exec_flagNZ_of_aslMem h hInv hi hr)
  case bit => exact flagNZ_iff (exec_flagNZ_of_bit h hi hm)

end Sys2Proof.Machine

/-! PROOFS. The obligation of 20_memory.md: one byte per write, and ASL in its memory modes as the only writer (R53). -/

namespace Sys2Proof.Machine

/-- A write to memory changes no register and no flag. -/
theorem sameRegisters_writeByte (s : State) (addr : Addr) (v : Byte) : SameRegisters (s.writeByte addr v) s := by
  simp [SameRegisters]

/-- An instruction with an effective address is not in Accumulator mode (40_addressing.md R120). -/
theorem mode_ne_accumulator_of_resolve {i : Instr} {s : State} {r : Resolved} (hr : resolve i s = some r) :
    i.mode ≠ .accumulator := by
  cases i <;> simp [resolve, Instr.mode] at hr ⊢

/-- Settles O12: the read-after-write laws and the frame of a write give the first clause. For the second, an instruction leaves memory as it was or is ASL with an effective address, which Accumulator mode has not. -/
theorem memWriteStoresOneByteAndOnlyAslWrites : Obligations.MemWriteStoresOneByteAndOnlyAslWrites := by
  unfold Obligations.MemWriteStoresOneByteAndOnlyAslWrites
  refine ⟨fun s addr v hInv => ?write, fun i s t h hne => ?onlyAsl⟩
  case write =>
    exact ⟨State.readByte_writeByte_eq addr v hInv, fun _ hother => State.readByte_writeByte_ne s v hother,
      sameRegisters_writeByte s addr v⟩
  case onlyAsl =>
    rcases exec_mem_cases h with hsame | ⟨r, hasl, hr, -⟩
    · exact absurd hsame hne
    · exact ⟨hasl, mode_ne_accumulator_of_resolve hr⟩

end Sys2Proof.Machine

/-! PROOFS. The obligations of 30_encoding.md: the dispatch table holds only valid pairs, and the one way to the fault is an opcode byte outside it (R88). -/

namespace Sys2Proof.Machine

/-- Every row of the dispatch table has a mode its mnemonic has (30_encoding.md R88, R89). -/
theorem validPair_of_mem_opcodeTable : ∀ row ∈ opcodeTable, validPair row.mnemonic row.mode = true := by decide

/-- What an opcode byte dispatches to is a valid pair (30_encoding.md R88). -/
theorem validPair_of_dispatch {op : Byte} {mn : Mnemonic} {md : Mode} (h : dispatch op = some (mn, md)) :
    validPair mn md = true :=
  validPair_of_mem_opcodeTable _ (dispatch_some_mem h)

/-- The operand bytes cannot make an entry of the table fail to assemble: only a missing entry makes a step fault (60_exceptions.md R260, R262). -/
theorem dispatch_eq_none_of_step_fault {s : State} {f : Fault} (h : step s = .fault f) : dispatch (fetchOpcode s) = none := by
  rcases step_cases s with ⟨hfetch, -, -⟩ | ⟨i, t, -, -, hnext, -⟩
  · exact fetchInstr_eq_none_iff.mp hfetch
  · rw [hnext] at h
    cases h

/-- Settles O6: the rows of the table are valid pairs that assemble from any operand bytes, and by the inversion of a step a fault means that the opcode byte has no row. -/
theorem onlyOpcodesOutsideTheTableFault : Obligations.OnlyOpcodesOutsideTheTableFault := by
  unfold Obligations.OnlyOpcodesOutsideTheTableFault
  refine ⟨fun op mn md h => ⟨validPair_of_dispatch h, fun b1 b2 => ?assembles⟩, fun s f h => dispatch_eq_none_of_step_fault h⟩
  case assembles =>
    obtain ⟨i, hi, -⟩ := assemble_of_dispatch h b1 b2
    exact ⟨i, hi⟩

end Sys2Proof.Machine


/-! PROOFS. The obligation of 41_adc.md: D selects the addition ADC makes (R142). -/

namespace Sys2Proof.Machine

@[simp] theorem adcSum_true (a m : Byte) (cin : Bool) : adcSum true a m cin = twoStage bcdAdd a m cin := rfl
@[simp] theorem adcSum_false (a m : Byte) (cin : Bool) : adcSum false a m cin = twoStage binaryAdd a m cin := rfl

/-- Settles O24: every form of ADC is `adc` of its operand byte and an advance of PC. Neither writes D, and the byte left in A is that of `adcSum`, which is the decimal sum at D = 1 and the binary one at D = 0. -/
theorem decimalFlagSelectsTheAddition : Obligations.DecimalFlagSelectsTheAddition := by
  unfold Obligations.DecimalFlagSelectsTheAddition
  intro i s m hi hm
  refine ⟨_, exec_adc hi hm, ?keepsD, fun hD => ?decimal, fun hD => ?binary⟩
  case keepsD => simp
  case decimal => simp [hD]
  case binary => simp [hD]

end Sys2Proof.Machine

/-! PROOFS. The obligations of 42_and_asl_bit.md on AND (R170) and BIT (R188, R189). -/

namespace Sys2Proof.Machine

/-! ## Cycles of an instruction that is not a branch -/

/-- An instruction whose mode is not Relative has no condition to branch on (43_branches.md R206). -/
theorem branchOf_eq_none {i : Instr} (hi : i.mode ≠ .relative) (s : State) : branchOf i s = none := by
  cases i <;> simp [Instr.mode, branchOf] at hi ⊢

/-- No form of AND or BIT is in Relative mode (30_encoding.md R89). -/
theorem mode_ne_relative_of_and_or_bit {i : Instr} (hi : i.mnemonic = .and ∨ i.mnemonic = .bit) : i.mode ≠ .relative := by
  cases i <;> simp [Instr.mnemonic, Instr.mode] at hi ⊢

/-- The count is the base count and, on a page cross, the bonus of the forms that take it (44_step.md R241). -/
theorem cyclesOf_of_not_relative {i : Instr} (hi : i.mode ≠ .relative) (s : State) :
    cyclesOf i s = baseCycles i + (if takesPageCrossBonus i && pageCrossOf i s then 1 else 0) := by
  simp [cyclesOf, branchOf_eq_none hi s]

/-- Of the forms of AND the three with an indexed 16-bit address take the bonus. -/
theorem takesPageCrossBonus_of_and {i : Instr} (hi : i.mnemonic = .and) :
    takesPageCrossBonus i = true ↔ i.mode ∈ [Mode.absoluteX, .absoluteY, .zeroPageIndirectY] := by
  simp [takesPageCrossBonus, hi, or_assoc]

/-- Only ADC and AND have forms that take the bonus. -/
theorem takesPageCrossBonus_of_bit {i : Instr} (hi : i.mnemonic = .bit) : takesPageCrossBonus i = false := by
  simp [takesPageCrossBonus, hi]

/-! ## AND -/

/-- Settles O26: every form of AND is `andA` of its operand byte and an advance of PC, which write A, N, Z and PC only. AND does not branch, so its count is the base and the bonus of its crossing forms. -/
theorem andMasksTheAccumulator : Obligations.AndMasksTheAccumulator := by
  unfold Obligations.AndMasksTheAccumulator
  intro i s m hi hm
  refine ⟨⟨_, exec_and hi hm, fun k _ => ?mask, rfl, ?zero, rfl⟩, ?cycles⟩
  case mask => simp
  case zero => exact zeroOf_iff (s.a &&& m)
  case cycles =>
    rw [cyclesOf_of_not_relative (mode_ne_relative_of_and_or_bit (.inl hi))]
    simp only [Bool.and_eq_true, takesPageCrossBonus_of_and hi]

/-! ## BIT -/

/-- `A & M` is zero when no bit is set in both bytes (42_and_asl_bit.md R188). -/
theorem zeroOf_and_iff (a m : Byte) :
    zeroOf (a &&& m) = true ↔ ∀ k, k < 8 → ¬(a.getLsbD k = true ∧ m.getLsbD k = true) := by
  rw [zeroOf, beq_iff_eq, BitVec.eq_of_getLsbD_eq_iff]
  simp

/-- BIT has no immediate and no indexed form (42_and_asl_bit.md R189). -/
theorem mode_of_bit {i : Instr} (hi : i.mnemonic = .bit) : i.mode = .zeroPage ∨ i.mode = .absolute := by
  cases i <;> simp [Instr.mnemonic, Instr.mode] at hi ⊢

/-- Settles O29: both forms of BIT are `bitTest` of the operand byte and an advance of PC, which write N, V, Z and PC only. BIT does not branch and no form of it takes the bonus. -/
theorem bitTestsTheOperandAndKeepsA : Obligations.BitTestsTheOperandAndKeepsA := by
  unfold Obligations.BitTestsTheOperandAndKeepsA
  intro i s m hi hm
  refine ⟨_, exec_bit hi hm, rfl, rfl, zeroOf_and_iff s.a m, rfl, mode_of_bit hi, ?cycles⟩
  case cycles =>
    simp [cyclesOf_of_not_relative (mode_ne_relative_of_and_or_bit (.inr hi)), takesPageCrossBonus_of_bit hi]

end Sys2Proof.Machine

/-! PROOFS. The obligations of 43_branches.md: what a branch leaves unchanged (R208), and a branch that is not taken (R205). -/

namespace Sys2Proof.Machine

/-- A branch writes no byte of memory (43_branches.md R208). -/
@[simp] theorem readByte_branch (c : Bool) (rel : Byte) (s : State) (addr : Addr) :
    (branch c rel s).readByte addr = s.readByte addr := by
  rw [branch_eq, State.setPC_readByte]

/-- Settles O31: an instruction in Relative mode is `branch` on some condition, which writes PC only. -/
theorem branchesChangeNothingButPc : Obligations.BranchesChangeNothingButPc := by
  unfold Obligations.BranchesChangeNothingButPc
  intro i s t hi h
  obtain ⟨c, rel, hb⟩ := branchOf_of_relative hi s
  rw [exec_branch hb] at h
  cases h; simp

/-- A branch that is not taken goes to the next sequential instruction, whatever its displacement (43_branches.md R205). -/
theorem branch_not_taken (rel : Byte) (s : State) : branch false rel s = s.setPC (s.pc + 2#16) := rfl

/-- The count of a branch is that of its condition and displacement (43_branches.md R203). -/
theorem cyclesOf_branch {i : Instr} {s : State} {c : Bool} {rel : Byte} (h : branchOf i s = some (c, rel)) :
    cyclesOf i s = branchCycles c rel s := by
  simp [cyclesOf, h]

/-- A branch that is not taken costs the baseline two cycles (43_branches.md R203, R205). -/
theorem branchCycles_not_taken (rel : Byte) (s : State) : branchCycles false rel s = 2 := rfl

/-- Settles O32: `exec` answers what `branch` leaves, and on a condition that does not hold that is PC past the two bytes at the baseline cost. -/
theorem notTakenBranchAdvancesByTwo : Obligations.NotTakenBranchAdvancesByTwo := by
  unfold Obligations.NotTakenBranchAdvancesByTwo
  intro i rel s hb
  constructor
  · rw [exec_branch hb, branch_not_taken]
  · rw [cyclesOf_branch hb, branchCycles_not_taken]

end Sys2Proof.Machine

/-! PROOFS. The obligation of 60_exceptions.md: UnsupportedInstruction is the one exception (R263). -/

namespace Sys2Proof.Machine

/-- The opcode byte at PC has an entry when an instruction is fetched there (60_exceptions.md R262). -/
theorem supported_of_fetch {s : State} {i : Instr} (h : fetchInstr s = some i) : Supported (s.readByte s.pc) = true := by
  rw [← Bool.not_eq_false, not_supported_iff, h]
  exact Option.some_ne_none i

/-- Settles O36: by the inversion of a step, either the fetch failed, so that the opcode byte has no entry and is the one the fault reports, or an instruction was fetched and its execution answered a next state. -/
theorem noOtherExceptionExists : Obligations.NoOtherExceptionExists := by
  unfold Obligations.NoOtherExceptionExists
  intro s
  rcases step_cases s with ⟨hfetch, hfault, -⟩ | ⟨i, t, hfetch, -, hnext, -⟩
  · exact .inr ⟨(not_supported_iff s).mpr hfetch, hfault⟩
  · exact .inl ⟨supported_of_fetch hfetch, t, hnext⟩

end Sys2Proof.Machine

/-! PROOFS. The obligations of 30_encoding.md on the decoder: decoding and encoding are inverse to each other (R80 to R90), the opcode byte alone decides the form (R85), and the count of its values (R93). -/

namespace Sys2Proof.Machine

/-! ## What the decoder answers -/

theorem length_operandsOf (i : Instr) : (operandsOf i).length = i.mode.operandBytes := by cases i <;> rfl

/-- No mode takes more than two operand bytes (30_encoding.md R81). -/
theorem operandBytes_le_two (md : Mode) : md.operandBytes ≤ 2 := by cases md <;> decide

/-- A list decodes to an instruction when its first byte has an entry, the operand bytes of the mode follow, and they assemble to it; what is left is behind them. -/
theorem decode_cons_eq_instr_iff {op : Byte} {tail rest : List Byte} {i : Instr} :
    decode (op :: tail) = .instr i rest ↔
      ∃ mn md, dispatch op = some (mn, md) ∧ md.operandBytes ≤ tail.length ∧
        assemble mn md (tail.getD 0 0#8) (tail.getD 1 0#8) = some i ∧ tail.drop md.operandBytes = rest := by
  constructor
  · intro h
    simp only [decode] at h
    split at h
    · cases h
    · next mn md hd =>
      split at h
      · cases h
      · next hlen =>
        split at h
        · next j ha =>
          cases h
          exact ⟨mn, md, hd, Nat.le_of_not_lt hlen, ha, rfl⟩
        · cases h
  · rintro ⟨mn, md, hd, hlen, ha, rfl⟩
    simp only [decode, hd, if_neg (Nat.not_lt.mpr hlen), ha]

theorem decodeInstr_of_dispatch {op : Byte} {mn : Mnemonic} {md : Mode} (h : dispatch op = some (mn, md)) (b1 b2 : Byte) :
    decodeInstr op b1 b2 = assemble mn md b1 b2 := by
  simp [decodeInstr, h]

theorem decodeInstr_of_no_dispatch {op : Byte} (h : dispatch op = none) (b1 b2 : Byte) : decodeInstr op b1 b2 = none := by
  simp [decodeInstr, h]

/-! ## Decoding an encoding, and encoding what was decoded -/

/-- The form of an instruction with the operand bytes of its encoding is the instruction, whatever bytes follow (30_encoding.md R82 to R84). -/
theorem assemble_operandsOf (i : Instr) (rest : List Byte) :
    assemble i.mnemonic i.mode ((operandsOf i ++ rest).getD 0 0#8) ((operandsOf i ++ rest).getD 1 0#8) = some i := by
  cases i <;> simp [Instr.mnemonic, Instr.mode, operandsOf, assemble]

/-- The encoding of an instruction decodes to it and leaves the bytes that follow. -/
theorem decode_encode (i : Instr) (rest : List Byte) : decode (encode i ++ rest) = .instr i rest := by
  refine decode_cons_eq_instr_iff.mpr ⟨_, _, dispatch_opcodeOf i, ?enough, assemble_operandsOf i rest, ?left⟩
  case enough => simp [← length_operandsOf]
  case left => simp [← length_operandsOf]

/-- Settles O2: the opcode byte of an instruction dispatches to its form, which its operand bytes assemble to it again. -/
theorem decodeOfEncodeGivesTheInstructionBack : Obligations.DecodeOfEncodeGivesTheInstructionBack := by
  unfold Obligations.DecodeOfEncodeGivesTheInstructionBack
  intro i rest _
  exact decode_encode i rest

/-- What a supported opcode byte assembles to has that opcode byte. -/
theorem opcodeOf_of_assemble {op : Byte} {mn : Mnemonic} {md : Mode} {b1 b2 : Byte} {i : Instr}
    (hd : dispatch op = some (mn, md)) (ha : assemble mn md b1 b2 = some i) : opcodeOf i = op := by
  obtain ⟨j, hj, hop⟩ := assemble_of_dispatch hd b1 b2
  rw [ha] at hj
  cases hj; exact hop

/-- The bytes that the decoder looks at are the first bytes of the list. -/
theorem take_getD_pair {bytes : List Byte} {n : Nat} (hn : n ≤ 2) (hlen : n ≤ bytes.length) :
    [bytes.getD 0 0#8, bytes.getD 1 0#8].take n = bytes.take n := by
  obtain rfl | rfl | rfl : n = 0 ∨ n = 1 ∨ n = 2 := by omega
  · rfl
  · cases bytes with
    | nil => simp at hlen
    | cons b rest => rfl
  · match bytes, hlen with
    | b :: c :: rest, _ => rfl

/-- Settles O3: the opcode byte is that of the instruction assembled from its form, and the operand bytes taken are the operands of that instruction. -/
theorem decodedBytesAreTheEncoding : Obligations.DecodedBytesAreTheEncoding := by
  unfold Obligations.DecodedBytesAreTheEncoding
  intro bytes rest i h
  cases bytes with
  | nil => cases h
  | cons op tail =>
    obtain ⟨mn, md, hd, hlen, ha, rfl⟩ := decode_cons_eq_instr_iff.mp h
    obtain ⟨rfl, rfl, hoperands⟩ := assemble_spec ha
    have htake : operandsOf i = tail.take i.mode.operandBytes :=
      hoperands.trans (take_getD_pair (operandBytes_le_two _) hlen)
    refine ⟨?encoding, validPair_of_dispatch hd⟩
    case encoding => rw [encode, htake, opcodeOf_of_assemble hd ha, List.cons_append, List.take_append_drop]

/-! ## The opcode byte decides the form -/

/-- What a supported opcode byte decodes to has the form of its entry, whatever the operand bytes are (30_encoding.md R80, R85). -/
theorem decodeInstr_form {op : Byte} {mn : Mnemonic} {md : Mode} (h : dispatch op = some (mn, md)) (b1 b2 : Byte) :
    (decodeInstr op b1 b2).map (fun i => (i.mnemonic, i.mode, i.length)) = some (mn, md, md.length) := by
  obtain ⟨i, hi, -⟩ := assemble_of_dispatch h b1 b2
  obtain ⟨rfl, rfl, -⟩ := assemble_spec hi
  rw [decodeInstr_of_dispatch h, hi]
  rfl

/-- Settles O4: without an entry nothing is decoded, and with one the form is that of the entry. -/
theorem opcodeByteAloneDecidesTheForm : Obligations.OpcodeByteAloneDecidesTheForm := by
  unfold Obligations.OpcodeByteAloneDecidesTheForm
  intro op b1 b2 b1' b2'
  cases hd : dispatch op with
  | none => rw [decodeInstr_of_no_dispatch hd, decodeInstr_of_no_dispatch hd]
  | some form => rw [decodeInstr_form hd, decodeInstr_form hd]

/-- Settles O1: the decoder evaluates to the instruction of each word. -/
theorem sampleWordsDecodeToTheirInstructions : Obligations.SampleWordsDecodeToTheirInstructions := by
  unfold Obligations.SampleWordsDecodeToTheirInstructions
  decide

/-! ## The count of the opcode bytes -/

/-- Every pair the core has stands in a row of the dispatch table (30_encoding.md R89, R90). -/
theorem exists_row_of_validPair {mn : Mnemonic} {md : Mode} (h : validPair mn md = true) :
    ∃ row ∈ opcodeTable, row.mnemonic = mn ∧ row.mode = md := by
  have hrows : ∀ md' ∈ mn.modes, ∃ row ∈ opcodeTable, row.mnemonic = mn ∧ row.mode = md' := by cases mn <;> decide
  exact hrows md (List.contains_iff_mem.mp h)

/-- The pair of each row is the entry of one opcode byte only (30_encoding.md R87, R90). -/
theorem one_opcode_of_row : ∀ row ∈ opcodeTable,
    ((List.range 256).filter (fun n => dispatch (BitVec.ofNat 8 n) == some (row.mnemonic, row.mode))).length = 1 := by
  decide

theorem count_supported : ((List.range 256).filter (fun n => Supported (BitVec.ofNat 8 n))).length = 29 := by decide

/-- Settles O5: of the 256 bytes those without an entry are the rest, and a valid pair is that of a row, whose pair one byte has. -/
theorem twentyNineOpcodesAnd227Unsupported : Obligations.TwentyNineOpcodesAnd227Unsupported := by
  unfold Obligations.TwentyNineOpcodesAnd227Unsupported
  refine ⟨count_supported, ?unsupported, fun mn md h => ?onePerPair⟩
  case unsupported =>
    have hsplit := (List.filter_append_perm (fun n => Supported (BitVec.ofNat 8 n)) (List.range 256)).length_eq
    rw [List.length_append, count_supported, List.length_range] at hsplit
    omega
  case onePerPair =>
    obtain ⟨row, hrow, rfl, rfl⟩ := exists_row_of_validPair h
    exact one_opcode_of_row row hrow

end Sys2Proof.Machine

/-! PROOFS. The obligations on the canonical form of memory (log 1): Reset, every step and every transaction keep it, and memories in it that read alike are equal; and what is read after the host's writes (20_memory.md R52). -/

namespace Sys2Proof.Machine

/-! ## The canonical form is kept -/

theorem reset_inv : State.reset.Inv := rfl

/-- Settles O8: a memory without a cell is canonical. -/
theorem resetMemoryIsCanonical : Obligations.ResetMemoryIsCanonical := reset_inv

/-- An instruction keeps the canonical form: it leaves memory alone or writes one byte of it. -/
theorem exec_inv {i : Instr} {s t : State} (hInv : s.Inv) (h : exec i s = .next t) : t.Inv := by
  rcases exec_mem_cases h with hsame | ⟨r, -, -, hwrite⟩
  · exact State.Inv.of_mem_eq hInv hsame
  · exact State.Inv.of_mem_eq (State.writeByte_inv r.ea _ hInv) hwrite

/-- Settles O9: a step with a next state ran an instruction, which keeps the canonical form. -/
theorem stepKeepsCanonicalMemory : Obligations.StepKeepsCanonicalMemory := by
  unfold Obligations.StepKeepsCanonicalMemory
  intro s t hInv h
  obtain ⟨i, -, hexec⟩ := step_next_iff.mp h
  exact exec_inv hInv hexec

/-- The state that Step leaves is canonical, whether the step executed or raised the exception. -/
theorem stepReport_inv {s : State} (hInv : s.Inv) : (stepReport s).state.Inv := by
  rcases step_cases s with ⟨-, -, hreport⟩ | ⟨i, t, -, hexec, -, hreport⟩
  · rw [hreport]; exact hInv
  · rw [hreport]; exact exec_inv hInv hexec

/-- A write of the host keeps the canonical form: it is a write of a byte or leaves memory alone. -/
theorem hostWrite_inv {s : State} (w : HostWrite) (hInv : s.Inv) : (hostWrite w s).Inv := by
  cases w with
  | memory addr v => exact State.writeByte_inv addr v hInv
  | _ => exact State.Inv.of_mem_eq hInv rfl

theorem transact_inv {s : State} (tr : Transaction) (hInv : s.Inv) : (transact tr s).1.Inv := by
  cases tr with
  | reset => exact reset_inv
  | step => exact stepReport_inv hInv
  | write w => exact hostWrite_inv w hInv

/-- Settles O10: by induction on the transactions, each of which keeps the canonical form. -/
theorem transactionsKeepCanonicalMemory : Obligations.TransactionsKeepCanonicalMemory := by
  unfold Obligations.TransactionsKeepCanonicalMemory
  intro ts
  induction ts with
  | nil => exact fun s hInv => hInv
  | cons tr rest ih => exact fun s hInv => ih _ (transact_inv tr hInv)

/-! ## The canonical form is unique -/

/-- The head cell of a canonical list is told from a list that starts above it by the byte read there. -/
theorem lookupCell_head_ne {low k : Nat} {w : Byte} {rest cells : List Host.Cell}
    (h : canonicalFrom low ((k, w) :: rest) = true) (hcells : canonicalFrom (k + 1) cells = true) :
    lookupCell ((k, w) :: rest) k ≠ lookupCell cells k := by
  rw [lookupCell_below hcells (Nat.lt_succ_self k)]
  exact lookupCell_head h

/-- Lists canonical from one address that read alike inside the address space are equal. -/
theorem canonicalFrom_ext {low : Nat} {cells cells' : List Host.Cell} (h : canonicalFrom low cells = true)
    (h' : canonicalFrom low cells' = true)
    (hread : ∀ key, key < Config.memorySize → lookupCell cells key = lookupCell cells' key) : cells = cells' := by
  induction cells generalizing low cells' with
  | nil =>
    cases cells' with
    | nil => rfl
    | cons c' rest' =>
      obtain ⟨-, hk', -, -⟩ := canonicalFrom_cons.mp h'
      exact absurd (hread c'.1 hk').symm (lookupCell_head_ne h' rfl)
  | cons c rest ih =>
    obtain ⟨k, w⟩ := c
    obtain ⟨hlow, hk, hw, hrest⟩ := canonicalFrom_cons.mp h
    cases cells' with
    | nil => exact absurd (hread k hk) (lookupCell_head_ne h rfl)
    | cons c' rest' =>
      obtain ⟨k', w'⟩ := c'
      obtain ⟨hlow', hk', hw', hrest'⟩ := canonicalFrom_cons.mp h'
      rcases Nat.lt_trichotomy k k' with hlt | rfl | hgt
      · exact absurd (hread k hk) (lookupCell_head_ne h (canonicalFrom_cons.mpr ⟨hlt, hk', hw', hrest'⟩))
      · have hbyte : w = w' := by simpa [lookupCell] using hread k hk
        have htail : rest = rest' := by
          refine ih hrest hrest' fun key hkey => ?_
          by_cases hle : key ≤ k
          · rw [lookupCell_below hrest (by omega), lookupCell_below hrest' (by omega)]
          · simpa [lookupCell, Nat.ne_of_gt (Nat.lt_of_not_le hle)] using hread key hkey
        rw [hbyte, htail]
      · exact absurd (hread k' hk').symm (lookupCell_head_ne h' (canonicalFrom_cons.mpr ⟨hgt, hk, hw, hrest⟩))

/-- Settles O11: memories are their lists of cells, and every address of the address space is one of `Addr`. -/
theorem canonicalMemoriesReadingAlikeAreEqual : Obligations.CanonicalMemoriesReadingAlikeAreEqual := by
  unfold Obligations.CanonicalMemoriesReadingAlikeAreEqual
  intro m m' h h' hread
  have hcells : m.cells = m'.cells := by
    refine canonicalFrom_ext h h' fun key hkey => ?_
    have hkey16 : (BitVec.ofNat 16 key).toNat = key := Nat.mod_eq_of_lt hkey
    simpa [Memory.read, hkey16] using hread (BitVec.ofNat 16 key)
  cases m; cases m'; simpa using hcells

/-! ## Reading after the host's writes -/

/-- The byte at an address after a write of the host: the one written where it is a memory write to that address, the one before otherwise. -/
theorem readByte_hostWrite {s : State} (hInv : s.Inv) (w : HostWrite) (ws : List HostWrite) (addr : Addr) :
    lastWritten ((hostWrite w s).readByte addr) addr ws = lastWritten (s.readByte addr) addr (w :: ws) := by
  cases w with
  | memory k v =>
    rw [lastWritten, hostWrite]
    split
    · next heq => rw [heq, State.readByte_writeByte_eq k v hInv]
    · next hne => rw [State.readByte_writeByte_ne s v hne]
  | _ => rfl

/-- From every canonical state a list of the host's writes leaves at each address the byte written last. -/
theorem readByte_transactAll_writes {s : State} (hInv : s.Inv) (ws : List HostWrite) (addr : Addr) :
    (transactAll (ws.map .write) s).readByte addr = lastWritten (s.readByte addr) addr ws := by
  induction ws generalizing s with
  | nil => rfl
  | cons w rest ih => exact (ih (hostWrite_inv w hInv)).trans (readByte_hostWrite hInv w rest addr)

/-- Settles O13: the reset state is canonical and reads 0x00 everywhere. -/
theorem memReadGivesTheByteTheHostWroteLast : Obligations.MemReadGivesTheByteTheHostWroteLast := by
  unfold Obligations.MemReadGivesTheByteTheHostWroteLast
  exact readByte_transactAll_writes reset_inv

end Sys2Proof.Machine

/-! PROOFS. The obligations of 40_addressing.md on the resolver: the effective address and the page cross of each mode (R113 to R119, R122, R125, R126), and the operand byte of each form (R112, R120, R123). -/

namespace Sys2Proof.Machine

/-! ## Effective addresses -/

/-- An index is added to a zero-page address modulo 256 (40_addressing.md R115, R118). -/
theorem zext16_add_toNat (zp index : Byte) : (zext16 (zp + index)).toNat = (zp.toNat + index.toNat) % 256 := by
  rw [zext16_toNat, BitVec.toNat_add]

/-- Settles O14: both modes widen a byte to their address. -/
theorem zeroPageModesStayInTheZeroPage : Obligations.ZeroPageModesStayInTheZeroPage := by
  unfold Obligations.ZeroPageModesStayInTheZeroPage
  exact fun zp s => ⟨zext16_toNat zp, rfl, zext16_add_toNat zp s.x, rfl⟩

/-- A pointer as a number, where its two bytes are known by the numbers of their addresses (20_memory.md R55). -/
theorem readPointer_toNat {p lo hi : Byte} {s : State} (hlo : s.readByte (BitVec.ofNat 16 p.toNat) = lo)
    (hhi : s.readByte (BitVec.ofNat 16 ((p.toNat + 1) % 256)) = hi) :
    (readPointer p s).toNat = hi.toNat * 256 + lo.toNat := by
  have hnext : (p + 1#8).toNat = (p.toNat + 1) % 256 := BitVec.toNat_add p 1#8
  rw [readPointer_spec, zext16_eq_ofNat, zext16_eq_ofNat, hnext, hlo, hhi]

/-- Settles O15: both modes read a pointer, (Zero Page,X) at the sum modulo 256 and (Zero Page),Y at the operand, which it then indexes; the low byte of the pointer decides its page cross. -/
theorem indirectModesReadAWrappedLittleEndianPointer : Obligations.IndirectModesReadAWrappedLittleEndianPointer := by
  unfold Obligations.IndirectModesReadAWrappedLittleEndianPointer
  intro zp s lo hi lo' hi' hlo hhi hlo' hhi'
  have hsum : (zp + s.x).toNat = (zp.toNat + s.x.toNat) % 256 := BitVec.toNat_add zp s.x
  have hX : (readPointer (zp + s.x) s).toNat = hi.toNat * 256 + lo.toNat := by
    refine readPointer_toNat ?_ ?_
    · rw [hsum]; exact hlo
    · rw [hsum, Nat.mod_add_mod]; exact hhi
  have hY : (readPointer zp s).toNat = hi'.toNat * 256 + lo'.toNat := readPointer_toNat hlo' hhi'
  obtain ⟨hea, hcross, -⟩ := indexed_spec (readPointer zp s) s.y
  rw [hY] at hea hcross
  refine ⟨hX, rfl, hea, hcross.trans ?lowByte⟩
  case lowByte =>
    have := lo'.isLt
    omega

/-- Settles O16: the two indexed modes are `indexed` of the address, by X and by Y. -/
theorem absoluteModesAddTheIndexAndReportTheCross : Obligations.AbsoluteModesAddTheIndexAndReportTheCross := by
  unfold Obligations.AbsoluteModesAddTheIndexAndReportTheCross
  intro addr s
  obtain ⟨heaX, hcrossX, hhighX⟩ := indexed_spec addr s.x
  obtain ⟨heaY, hcrossY, hhighY⟩ := indexed_spec addr s.y
  exact ⟨rfl, heaX, hcrossX, hhighX, heaY, hcrossY, hhighY⟩

/-! ## Page cross and operand by form -/

theorem pageCrossOf_of_resolve {i : Instr} {s : State} {r : Resolved} (h : resolve i s = some r) :
    pageCrossOf i s = r.pageCross := by
  simp [pageCrossOf, h]

theorem pageCrossOf_of_no_resolve {i : Instr} {s : State} (h : resolve i s = none) : pageCrossOf i s = false := by
  simp [pageCrossOf, h]

/-- Settles O18: of the modes with an address all but the three resolve without a page cross, and a form without one reports none. -/
theorem onlyThreeModesReportAPageCross : Obligations.OnlyThreeModesReportAPageCross := by
  unfold Obligations.OnlyThreeModesReportAPageCross
  intro i s h
  cases hr : resolve i s with
  | none => simp [pageCrossOf_of_no_resolve hr] at h
  | some r =>
    rw [pageCrossOf_of_resolve hr] at h
    cases i <;> simp [resolve] at hr <;>
      simp [Instr.mode, ← hr, resolveZeroPage, resolveZeroPageX, resolveAbsolute, resolveIndirectX] at h ⊢

/-- Settles O17: form by form, the resolver's address, where there is one, and the operand at it are what the row names. -/
theorem operandByteOfEveryForm : Obligations.OperandByteOfEveryForm := by
  unfold Obligations.OperandByteOfEveryForm
  intro s v addr
  simp only [List.forall_mem_cons, List.not_mem_nil, false_imp_iff, implies_true, and_true]
  and_intros <;> rfl

end Sys2Proof.Machine

/-! PROOFS. The obligations of 41_adc.md: `BcdAdd` (R140, R148), the sum and carry of ADC in both modes (R141, R143, R144, R147), its flags and what it keeps (R145, R146). -/

namespace Sys2Proof.Machine

/-! ## Binary mode -/

/-- Settles O19: ADC is `adc` of its operand, whose two binary stages are one addition with carry. -/
theorem adcBinaryAddsWithCarry : Obligations.AdcBinaryAddsWithCarry := by
  unfold Obligations.AdcBinaryAddsWithCarry
  intro i s m hi hm hD
  obtain ⟨hresult, hcarry⟩ := twoStage_binaryAdd_spec s.a m s.flagC
  refine ⟨_, exec_adc hi hm, ?sum, ?carry⟩
  case sum => simpa [hD] using hresult
  case carry => simpa [hD] using hcarry

/-- On the sum with carry the sign rule for V says that the signed sum is out of range (41_adc.md R145). -/
theorem overflowOf_sum_iff {a m r : Byte} {cin : Bool} (hr : r.toNat = (a.toNat + m.toNat + cin.toNat) % 256) :
    overflowOf a m r = true ↔ a.toInt + m.toInt + cin.toNat < -128 ∨ a.toInt + m.toInt + cin.toNat > 127 := by
  have ha := a.isLt
  have hm := m.isLt
  have hc := Bool.toNat_le cin
  rw [overflowOf_iff, BitVec.toInt_eq_toNat_cond, BitVec.toInt_eq_toNat_cond]
  split <;> split <;> omega

/-- Settles O20: V of ADC is the sign rule on the sum that its two binary stages give. -/
theorem adcBinaryOverflowIsSignedOverflow : Obligations.AdcBinaryOverflowIsSignedOverflow := by
  unfold Obligations.AdcBinaryOverflowIsSignedOverflow
  intro i s m hi hm hD
  obtain ⟨hresult, -⟩ := twoStage_binaryAdd_spec s.a m s.flagC
  refine ⟨_, exec_adc hi hm, ?overflow⟩
  case overflow => simpa [hD] using overflowOf_sum_iff hresult

/-! ## Decimal mode -/

/-- The model's `BcdAdd` is the rule written out on numbers, for every pair of bytes (41_adc.md R140, R148). -/
theorem bcdAdd_eq_byTheRule (a b : Byte) :
    (bcdAdd a b).result.toNat = (bcdAddByTheRule a.toNat b.toNat).1 ∧ (bcdAdd a b).carry = (bcdAddByTheRule a.toNat b.toNat).2 := by
  obtain ⟨hresult, hcarry⟩ := bcdAdd_spec a b
  simp only [correctDigit_eq] at hresult hcarry
  refine ⟨hresult, hcarry.trans ?_⟩
  simp [bcdAddByTheRule]

/-- The decimal sum of ADC is the operand pass of the rule followed by its carry pass (41_adc.md R143, R144). -/
theorem twoStage_bcdAdd_spec (a m : Byte) (cin : Bool) :
    let first := bcdAddByTheRule a.toNat m.toNat
    let second := bcdAddByTheRule first.1 cin.toNat
    (twoStage bcdAdd a m cin).result.toNat = second.1 ∧ (twoStage bcdAdd a m cin).carry = (first.2 || second.2) := by
  obtain ⟨hresult1, hcarry1⟩ := bcdAdd_eq_byTheRule a m
  obtain ⟨hresult2, hcarry2⟩ := bcdAdd_eq_byTheRule (bcdAdd a m).result (carryByte cin)
  rw [hresult1, carryByte_toNat] at hresult2 hcarry2
  exact ⟨hresult2, by rw [twoStage, hcarry1, hcarry2]⟩

/-- Settles O21: ADC is `adc` of its operand, whose decimal sum is two passes of the rule. -/
theorem adcDecimalMakesTwoBcdPasses : Obligations.AdcDecimalMakesTwoBcdPasses := by
  unfold Obligations.AdcDecimalMakesTwoBcdPasses
  intro i s m hi hm hD
  obtain ⟨hresult, hcarry⟩ := twoStage_bcdAdd_spec s.a m s.flagC
  refine ⟨_, exec_adc hi hm, ?result, ?carry⟩
  case result => simpa [hD] using hresult
  case carry => simpa [hD] using hcarry

/-- Settles O25: the six sums are evaluated. -/
theorem bcdAddWorkedCases : Obligations.BcdAddWorkedCases := by
  unfold Obligations.BcdAddWorkedCases
  decide

/-! ## Decimal operands -/

/-- One pass of the rule on numbers of two decimal digits: the result has two digits, and with the carry counted as a hundred it is the sum. -/
theorem bcdAddByTheRule_digits {a b : Nat} (ha : a % 16 ≤ 9 ∧ a / 16 ≤ 9) (hb : b % 16 ≤ 9 ∧ b / 16 ≤ 9) :
    let r := bcdAddByTheRule a b
    (r.1 % 16 ≤ 9 ∧ r.1 / 16 ≤ 9) ∧
      r.1 / 16 * 10 + r.1 % 16 + 100 * r.2.toNat = (a / 16 * 10 + a % 16) + (b / 16 * 10 + b % 16) := by
  simp only [bcdAddByTheRule]
  by_cases hlow : a % 16 + b % 16 > 9
  · by_cases hhigh : a / 16 + b / 16 + 1 > 9 <;> simp [hlow, hhigh] <;> omega
  · by_cases hhigh : a / 16 + b / 16 > 9 <;> simp [hlow, hhigh] <;> omega

/-- A first pass onto `sum` and a second one with a carry in, each with its own carry out, are one addition modulo 100. -/
theorem two_passes_modulo_hundred {u v sum : Nat} {c1 c2 cin : Bool} (h1 : u + 100 * c1.toNat = sum)
    (h2 : v + 100 * c2.toNat = u + cin.toNat) (hv : v < 100) :
    v = (sum + cin.toNat) % 100 ∧ ((c1 || c2) = true ↔ sum + cin.toNat ≥ 100) := by
  have hc := Bool.toNat_le cin
  cases c1 <;> cases c2 <;> simp at h1 h2 ⊢ <;> omega

/-- On decimal bytes the decimal sum of ADC is decimal again and is addition modulo 100 (41_adc.md R147). -/
theorem twoStage_bcdAdd_decimal {a m : Byte} (ha : IsBcd a) (hm : IsBcd m) (cin : Bool) :
    let sum := twoStage bcdAdd a m cin
    IsBcd sum.result ∧ bcdValue sum.result = (bcdValue a + bcdValue m + cin.toNat) % 100 ∧
      (sum.carry = true ↔ bcdValue a + bcdValue m + cin.toNat ≥ 100) := by
  obtain ⟨hresult, hcarry⟩ := twoStage_bcdAdd_spec a m cin
  have hcin : cin.toNat % 16 ≤ 9 ∧ cin.toNat / 16 ≤ 9 ∧ cin.toNat / 16 * 10 + cin.toNat % 16 = cin.toNat := by
    cases cin <;> decide
  obtain ⟨hcinLow, hcinHigh, hcinValue⟩ := hcin
  obtain ⟨hdigits1, hvalue1⟩ := bcdAddByTheRule_digits ha hm
  obtain ⟨hdigits2, hvalue2⟩ := bcdAddByTheRule_digits hdigits1 ⟨hcinLow, hcinHigh⟩
  rw [hcinValue] at hvalue2
  simp only [IsBcd, bcdValue, hresult, hcarry]
  exact ⟨hdigits2, two_passes_modulo_hundred hvalue1 hvalue2 (by omega)⟩

/-- Settles O22: ADC is `adc` of its operand, and its decimal sum of decimal bytes is addition modulo 100. -/
theorem adcDecimalAddsModuloHundred : Obligations.AdcDecimalAddsModuloHundred := by
  unfold Obligations.AdcDecimalAddsModuloHundred
  intro i s m hi hm hD ha hmBcd
  obtain ⟨hdigits, hvalue, hcarry⟩ := twoStage_bcdAdd_decimal ha hmBcd s.flagC
  refine ⟨_, exec_adc hi hm, ?digits, ?value, ?carry⟩
  case digits => simpa [hD] using hdigits
  case value => simpa [hD] using hvalue
  case carry => simpa [hD] using hcarry

/-! ## Flags and frame -/

/-- Settles O23: in both modes `adc` takes N, Z and V from the byte it writes to A, and keeps X, Y, D, I and memory; the advance writes PC only. -/
theorem adcFlagsComeFromTheResultAndTheRestIsKept : Obligations.AdcFlagsComeFromTheResultAndTheRestIsKept := by
  unfold Obligations.AdcFlagsComeFromTheResultAndTheRestIsKept
  intro i s m hi hm
  exact ⟨_, exec_adc hi hm, negativeOf_iff _, zeroOf_iff _, overflowOf_iff s.a m _, rfl, rfl, rfl, rfl, rfl, rfl⟩

end Sys2Proof.Machine

/-! PROOFS. The obligations of 42_and_asl_bit.md on ASL: the accumulator form and the memory forms (R180 to R187). -/

namespace Sys2Proof.Machine

/-- The three flags of ASL as numbers of the byte before: the bit shifted out, the bit that becomes bit 7, and whether the bits kept are all zero (42_and_asl_bit.md R181, R182). -/
theorem aslFlags_iff (v : Byte) :
    ((shiftLeft v).carry = true ↔ v.toNat ≥ 128) ∧ (negativeOf (shiftLeft v).result = true ↔ v.toNat % 128 ≥ 64) ∧
      (zeroOf (shiftLeft v).result = true ↔ v.toNat % 128 = 0) := by
  obtain ⟨hresult, hcarry⟩ := shiftLeft_spec v
  refine ⟨by simp [hcarry], ?negative, ?zero⟩
  case negative => rw [negativeOf_iff, hresult]; omega
  case zero => rw [zeroOf_iff, hresult]; omega

/-- Settles O27: ASL Accumulator is `aslA` and an advance of PC, which write A, N, Z, C and PC only. -/
theorem aslAccumulatorShiftsA : Obligations.AslAccumulatorShiftsA := by
  unfold Obligations.AslAccumulatorShiftsA
  intro s
  obtain ⟨hC, hN, hZ⟩ := aslFlags_iff s.a
  exact ⟨_, exec_aslAcc s, (shiftLeft_spec s.a).1, hC, hN, hZ, rfl⟩

/-- ASL on memory leaves every byte but the one at its effective address (20_memory.md R53). -/
theorem aslMem_readByte_ne {r : Resolved} {addr : Addr} (s : State) (hne : addr ≠ r.ea) :
    (aslMem r s).readByte addr = s.readByte addr :=
  State.readByte_writeByte_ne (aslFlags (s.operandAt r) s) _ hne

/-- Settles O28: ASL with an effective address is `aslMem` there and an advance of PC, which write one byte, N, Z, C and PC only. -/
theorem aslMemoryShiftsInPlace : Obligations.AslMemoryShiftsInPlace := by
  unfold Obligations.AslMemoryShiftsInPlace
  intro i s r hInv hi hr
  obtain ⟨hC, hN, hZ⟩ := aslFlags_iff (s.readByte r.ea)
  refine ⟨_, exec_aslMem hi hr, ?doubled, fun addr hne => aslMem_readByte_ne s hne, hC, hN, hZ, rfl⟩
  case doubled =>
    rw [State.advance_readByte, aslMem_readByte_ea r hInv]
    exact (shiftLeft_spec _).1

end Sys2Proof.Machine

/-! PROOFS. The obligations of 43_branches.md on where a branch goes (R200 to R202, R206) and what a taken one costs (R203, R204). -/

namespace Sys2Proof.Machine

/-- The target as a number: the signed displacement is added to the next address modulo 65,536 (43_branches.md R201, R202). -/
theorem branchTarget_toNat (rel : Byte) (s : State) :
    ((branchTarget rel s).toNat : Int) = ((s.pc.toNat : Int) + 2 + rel.toInt) % 65536 := by
  have hrel := sext16_toNat rel
  have htwo : (2#16 : Addr).toNat = 2 := rfl
  rw [branchTarget, BitVec.toNat_add, BitVec.toNat_add, htwo]
  omega

theorem branchNext_toNat (s : State) : (branchNext s).toNat = (s.pc.toNat + 2) % 65536 := by
  rw [branchNext, BitVec.toNat_add]
  rfl

/-- What `branch` leaves, in the terms of the statements. -/
theorem branchesOn_branch (c : Bool) (rel : Byte) (s : State) : BranchesOn c rel s (branch c rel s) := by
  refine ⟨?pc, branch_eq c rel s⟩
  cases c with
  | true => simpa using branchTarget_toNat rel s
  | false => simp [branchNext_toNat]

/-- Settles O30: each branch is `branch` on the flag it tests. -/
theorem branchesGoWhereTheFlagSays : Obligations.BranchesGoWhereTheFlagSays := by
  unfold Obligations.BranchesGoWhereTheFlagSays
  intro rel s
  exact ⟨⟨_, rfl, branchesOn_branch _ rel s⟩, ⟨_, rfl, branchesOn_branch _ rel s⟩, ⟨_, rfl, branchesOn_branch _ rel s⟩,
    ⟨_, rfl, branchesOn_branch _ rel s⟩, ⟨_, rfl, branchesOn_branch _ rel s⟩, ⟨_, rfl, branchesOn_branch _ rel s⟩⟩

/-- A taken branch stays on the page of the next sequential instruction when both addresses have the same high byte (43_branches.md R204). -/
theorem branchCross_eq_false_iff (rel : Byte) (s : State) :
    branchCross rel s = false ↔ (branchTarget rel s).toNat / 256 = (branchNext s).toNat / 256 := by
  rw [branchCross, bne_eq_false_iff_eq, ← BitVec.toNat_inj, hiByte_toNat, hiByte_toNat]

/-- The count of a taken branch, by the page of its target (43_branches.md R203). -/
theorem branchCycles_taken (rel : Byte) (s : State) :
    branchCycles true rel s = if (branchTarget rel s).toNat / 256 = (branchNext s).toNat / 256 then 3 else 4 := by
  simp only [← branchCross_eq_false_iff]
  cases h : branchCross rel s <;> simp [branchCycles, h]

/-- Settles O33: a taken branch leaves PC at its target, and its count is that of the target's page. -/
theorem takenBranchCostsThreeOrFour : Obligations.TakenBranchCostsThreeOrFour := by
  unfold Obligations.TakenBranchCostsThreeOrFour
  intro i rel s t hb h
  rw [exec_branch hb] at h
  cases h
  rw [cyclesOf_branch hb, branchCycles_taken, branchNext_toNat, branch_pc, if_pos rfl]

end Sys2Proof.Machine

/-! PROOFS. The obligations of 44_step.md and 60_exceptions.md: a step runs the instruction whose bytes stand at PC (R231, R232), where it leaves PC (R237, R239), its whole outcome (R230), and the step that raises the exception (60_exceptions.md R261, 30_encoding.md R94). -/

namespace Sys2Proof.Machine

/-! ## The instruction at PC -/

/-- Settles O34: the decoder looks at the two bytes after the opcode byte as the machine's fetch does. -/
theorem stepRunsTheDecodedInstruction : Obligations.StepRunsTheDecodedInstruction := by
  unfold Obligations.StepRunsTheDecodedInstruction
  intro s i rest h
  obtain ⟨mn, md, hd, -, ha, -⟩ := decode_cons_eq_instr_iff.mp h
  exact step_of_fetch ((decodeInstr_of_dispatch hd _ _).trans ha)

/-- Up to three bytes that memory holds from an address up are the first of the three bytes read there. -/
theorem read_three_of_holdsBytes {bytes : List Byte} {addr : Addr} {s : State} (hlen : bytes.length ≤ 3) (h : HoldsBytes bytes addr s) :
    ∃ rest, [s.readByte addr, s.readByte (addr + 1#16), s.readByte (addr + 2#16)] = bytes ++ rest := by
  have htwo : addr + 1#16 + 1#16 = addr + 2#16 := BitVec.add_assoc _ _ _
  match bytes, hlen with
  | [], _ => exact ⟨_, rfl⟩
  | [a], _ =>
    obtain ⟨rfl, -⟩ := h
    exact ⟨_, rfl⟩
  | [a, b], _ =>
    obtain ⟨rfl, rfl, -⟩ := h
    exact ⟨_, rfl⟩
  | [a, b, c], _ =>
    obtain ⟨rfl, rfl, rfl, -⟩ := h
    exact ⟨[], by rw [htwo]; rfl⟩

/-- An instruction has at most three bytes (30_encoding.md R84). -/
theorem length_encode_le_three (i : Instr) : (encode i).length ≤ 3 := by
  have := operandBytes_le_two i.mode
  rw [encode, List.length_cons, length_operandsOf]
  omega

/-- Settles O35: the bytes at PC are the encoding and some that follow, so they decode to the instruction. -/
theorem stepRunsTheEncodedInstruction : Obligations.StepRunsTheEncodedInstruction := by
  unfold Obligations.StepRunsTheEncodedInstruction
  intro s i h
  obtain ⟨rest, hbytes⟩ := read_three_of_holdsBytes (length_encode_le_three i) h
  refine stepRunsTheDecodedInstruction s i rest ?_
  rw [hbytes, decode_encode]

/-- Settles O55: the two sums wrap to the addresses named. -/
theorem operandFetchWrapsAtTheTopOfMemory : Obligations.OperandFetchWrapsAtTheTopOfMemory := by
  unfold Obligations.OperandFetchWrapsAtTheTopOfMemory
  intro s
  constructor
  · intro hpc
    rw [fetchB1, fetchB2, hpc]
    exact ⟨rfl, rfl⟩
  · intro hpc
    rw [fetchB1, fetchB2, hpc]
    exact ⟨rfl, rfl⟩

/-! ## The final PC -/

/-- Settles O38: the low bytes are added, and what their sum has above eight bits goes to the high byte. -/
theorem advanceCarriesFromPclIntoPch : Obligations.AdvanceCarriesFromPclIntoPch := by
  unfold Obligations.AdvanceCarriesFromPclIntoPch
  intro s len hlen
  have hpc := s.pc.isLt
  simp only [State.pcl, State.pch, State.advance_pc, loByte_toNat, hiByte_toNat, BitVec.toNat_add, BitVec.toNat_ofNat]
  omega

/-- Only a form in Relative mode branches (43_branches.md R200). -/
theorem mode_eq_relative_of_branchOf {i : Instr} {s : State} {c : Bool} {rel : Byte} (h : branchOf i s = some (c, rel)) :
    i.mode = .relative := by
  by_cases hrel : i.mode = .relative
  · exact hrel
  · rw [branchOf_eq_none hrel] at h
    cases h

/-- An instruction that does not branch leaves PC behind its own bytes (44_step.md R238). -/
theorem exec_pc_of_not_relative {i : Instr} {s t : State} (h : exec i s = .next t) (hi : i.mode ≠ .relative) :
    t.pc = s.pc + BitVec.ofNat 16 i.length := by
  rcases exec_next_cases h with ⟨m, -, -, rfl⟩ | ⟨m, -, -, rfl⟩ | ⟨m, -, -, rfl⟩ | ⟨r, -, -, rfl⟩ | ⟨rfl, rfl⟩ | ⟨c, rel, hb, -⟩
  · simp
  · simp
  · simp
  · simp
  · rfl
  · exact absurd (mode_eq_relative_of_branchOf hb) hi

/-- A branch has two bytes (30_encoding.md R81). -/
theorem length_of_relative {i : Instr} (hi : i.mode = .relative) : i.length = 2 := by
  rw [Instr.length, hi]
  rfl

/-- Settles O37: the state of the report is that of the instruction at PC, which branches or leaves PC behind its own bytes; without an instruction it is the state before. -/
theorem finalPcOfEveryStep : Obligations.FinalPcOfEveryStep := by
  unfold Obligations.FinalPcOfEveryStep
  intro s
  refine ⟨fun i hfetch => ?executed, fun hfetch => by rw [stepReport_of_no_fetch hfetch]⟩
  case executed =>
    obtain ⟨t, hexec⟩ := exec_completes i s
    rw [stepReport_of_fetch hfetch hexec]
    refine ⟨?accumulator, fun hlen hmode => ?twoBytes, fun hlen => ?threeBytes, fun rel hb => ?notTaken, fun rel hb => ?taken⟩
    case accumulator =>
      rintro rfl
      exact exec_pc_of_not_relative hexec nofun
    case twoBytes => rw [exec_pc_of_not_relative hexec hmode, hlen]
    case threeBytes =>
      have hmode : i.mode ≠ .relative := fun hrel => by rw [length_of_relative hrel] at hlen; cases hlen
      rw [exec_pc_of_not_relative hexec hmode, hlen]
    case notTaken =>
      rw [exec_branch hb] at hexec
      cases hexec; rfl
    case taken =>
      rw [exec_branch hb] at hexec
      cases hexec; rfl

/-! ## The whole outcome -/

theorem stepCycles_of_fetch {s : State} {i : Instr} (h : fetchInstr s = some i) : stepCycles s = some (cyclesOf i s) := by
  simp [stepCycles, h]

theorem stepCycles_eq_none_iff {s : State} : stepCycles s = none ↔ fetchInstr s = none := by
  simp [stepCycles]

/-- Settles O41: by the inversion of a step, both the step and its report execute the instruction at PC or both raise the exception. -/
theorem stepReportAgreesWithStep : Obligations.StepReportAgreesWithStep := by
  unfold Obligations.StepReportAgreesWithStep
  intro s t
  rcases step_cases s with ⟨-, hstep, hreport⟩ | ⟨i, u, hfetch, -, hstep, hreport⟩
  · simp [hstep, hreport]
  · simp [hstep, hreport, stepCycles_of_fetch hfetch]

/-! ## The step that raises the exception -/

theorem transact_step_of_no_fetch {s : State} (h : fetchInstr s = none) :
    transact .step s = (s, some (.unsupported (s.readByte s.pc))) := by
  rw [transact, stepReport_of_no_fetch h]
  rfl

/-- Settles O39: without an entry the step gives the same state back, and so does the next one. -/
theorem unsupportedStepChangesNothingAndRecurs : Obligations.UnsupportedStepChangesNothingAndRecurs := by
  unfold Obligations.UnsupportedStepChangesNothingAndRecurs
  intro s h
  have hfetch := (not_supported_iff s).mp h
  have hstep := transact_step_of_no_fetch hfetch
  exact ⟨hstep, by rw [hstep, hstep], stepCycles_eq_none_iff.mpr hfetch⟩

/-- Settles O40: every byte of the reset state is 0x00, which has no entry. -/
theorem stepFromResetFaultsOnZero : Obligations.StepFromResetFaultsOnZero := by
  unfold Obligations.StepFromResetFaultsOnZero
  exact step_of_no_fetch (fetchInstr_eq_none_iff.mpr rfl)

end Sys2Proof.Machine

/-! PROOFS. The obligations on the memory accesses of a step (44_step.md R236, 20_memory.md R53, R58): which they are, that the writes among them are what a step does to memory, and that a fetch sees every earlier store (20_memory.md R63). -/

namespace Sys2Proof.Machine

/-! ## The accesses of an instruction -/

theorem stepAccesses_of_fetch {s : State} {i : Instr} (h : fetchInstr s = some i) : stepAccesses s = accessesOf i s := by
  simp [stepAccesses, h]

theorem stepAccesses_of_no_fetch {s : State} (h : fetchInstr s = none) : stepAccesses s = [.read s.pc] := by
  simp [stepAccesses, h]

/-- Settles O48: form by form, the fetches of the mode, the pointer reads, the operand read and the write back are those of the row. -/
theorem accessesOfEveryFormInOrder : Obligations.AccessesOfEveryFormInOrder := by
  unfold Obligations.AccessesOfEveryFormInOrder
  intro s v addr
  simp only [List.forall_mem_cons, List.not_mem_nil, false_imp_iff, implies_true, and_true]
  refine ⟨stepAccesses_of_no_fetch, ?_⟩
  and_intros <;> rfl

/-- What an instruction reads, in order: all its accesses but the write back (44_step.md R236). -/
def readsOf (i : Instr) (s : State) : List Access :=
  .read s.pc :: (operandFetches i.mode s ++ pointerFetches i s ++ operandRead i s)

theorem accessesOf_eq_reads_append (i : Instr) (s : State) : accessesOf i s = readsOf i s ++ writeBack i s := by
  simp [accessesOf, readsOf]

/-- Whatever the form, these accesses are reads. -/
theorem eq_read_of_mem_readsOf {i : Instr} {s : State} {access : Access} (h : access ∈ readsOf i s) : ∃ addr, access = .read addr := by
  simp only [readsOf, List.mem_cons, List.mem_append] at h
  rcases h with rfl | (hfetch | hpointer) | hoperand
  · exact ⟨_, rfl⟩
  · unfold operandFetches at hfetch
    split at hfetch <;> grind
  · unfold pointerFetches pointerReads at hpointer
    split at hpointer <;> grind
  · unfold operandRead at hoperand
    split at hoperand <;> grind

/-- ASL writes the shifted byte back to its effective address (42_and_asl_bit.md R180). -/
theorem writeBack_of_asl {i : Instr} {s : State} {r : Resolved} (hi : i.mnemonic = .asl) (hr : resolve i s = some r) :
    writeBack i s = [.write r.ea (shiftLeft (s.operandAt r)).result] := by
  simp [writeBack, hi, hr]

/-- No other instruction writes memory. -/
theorem writeBack_of_not_asl {i : Instr} (hi : i.mnemonic ≠ .asl) (s : State) : writeBack i s = [] := by
  cases i <;> simp [writeBack, Instr.mnemonic] at hi ⊢

theorem mnemonic_ne_asl_of_branchOf {i : Instr} {s : State} {c : Bool} {rel : Byte} (h : branchOf i s = some (c, rel)) :
    i.mnemonic ≠ .asl := by
  cases i <;> simp [branchOf, Instr.mnemonic] at h ⊢

/-! ## How many accesses -/

/-- The longest lists are those of an indirect mode and of ASL Absolute (44_step.md R236). -/
theorem length_accessesOf_le_five (i : Instr) (s : State) : (accessesOf i s).length ≤ 5 := by
  cases i <;> exact Nat.le_of_ble_eq_true rfl

/-- Settles O49: the opcode fetch is always there, and no form makes more than five accesses. -/
theorem everyStepMakesOneToFiveAccesses : Obligations.EveryStepMakesOneToFiveAccesses := by
  unfold Obligations.EveryStepMakesOneToFiveAccesses
  intro s
  cases hfetch : fetchInstr s with
  | none => simp [stepAccesses_of_no_fetch hfetch]
  | some i =>
    rw [stepAccesses_of_fetch hfetch]
    exact ⟨Nat.succ_pos _, length_accessesOf_le_five i s⟩

/-! ## The writes are what a step does to memory -/

/-- Reads leave memory alone. -/
theorem applyWrites_reads_append {reads : List Access} (hreads : ∀ access ∈ reads, ∃ addr, access = .read addr) (rest : List Access)
    (m : Memory) : applyWrites (reads ++ rest) m = applyWrites rest m := by
  induction reads with
  | nil => rfl
  | cons access others ih =>
    obtain ⟨haccess, hothers⟩ := List.forall_mem_cons.mp hreads
    obtain ⟨addr, rfl⟩ := haccess
    exact ih hothers

/-- Of the accesses of an instruction only the write back changes memory. -/
theorem applyWrites_accessesOf (i : Instr) (s : State) (m : Memory) :
    applyWrites (accessesOf i s) m = applyWrites (writeBack i s) m := by
  rw [accessesOf_eq_reads_append, applyWrites_reads_append fun _ => eq_read_of_mem_readsOf]

/-- The memory an instruction leaves is the memory before it with its writes applied. -/
theorem exec_mem {i : Instr} {s t : State} (h : exec i s = .next t) : t.mem = applyWrites (accessesOf i s) s.mem := by
  rw [applyWrites_accessesOf]
  rcases exec_next_cases h with ⟨m, hi, -, rfl⟩ | ⟨m, hi, -, rfl⟩ | ⟨m, hi, -, rfl⟩ | ⟨r, hi, hr, rfl⟩ | ⟨rfl, rfl⟩ | ⟨c, rel, hb, rfl⟩
  · simp [writeBack_of_not_asl (i := i) (by simp [hi]), applyWrites]
  · simp [writeBack_of_not_asl (i := i) (by simp [hi]), applyWrites]
  · simp [writeBack_of_not_asl (i := i) (by simp [hi]), applyWrites]
  · simp [writeBack_of_asl hi hr, applyWrites]
  · rfl
  · simp [writeBack_of_not_asl (mnemonic_ne_asl_of_branchOf hb), applyWrites]

/-- The memory that Step leaves, executed or not. -/
theorem stepReport_mem (s : State) : (stepReport s).state.mem = applyWrites (stepAccesses s) s.mem := by
  rcases step_cases s with ⟨hfetch, -, hreport⟩ | ⟨i, t, hfetch, hexec, -, hreport⟩
  · rw [hreport, stepAccesses_of_no_fetch hfetch]
    rfl
  · rw [hreport, stepAccesses_of_fetch hfetch]
    exact exec_mem hexec

/-- Settles O50: an instruction writes back at most one byte, and an opcode fetch alone writes none. -/
theorem memoryAfterAStepIsItsWritesApplied : Obligations.MemoryAfterAStepIsItsWritesApplied := stepReport_mem

/-! ## A fetch sees every earlier store -/

/-- A transaction that does not store to an address leaves the byte there. -/
theorem readByte_transact_of_not_stores {tr : Transaction} {s : State} {addr : Addr} (h : tr.stores addr s = false) :
    (transact tr s).1.readByte addr = s.readByte addr := by
  match tr with
  | .reset => cases h
  | .step =>
    rw [transact, State.readByte, stepReport_mem]
    exact applyWrites_read_of_not_stores s.mem h
  | .write (.memory k v) =>
    have hne : addr ≠ k := fun heq => by simp [Transaction.stores, heq] at h
    exact State.readByte_writeByte_ne s v hne
  | .write (.a _) | .write (.x _) | .write (.y _) | .write (.pc _) | .write (.flagN _) | .write (.flagV _) | .write (.flagD _)
  | .write (.flagZ _) | .write (.flagC _) | .write (.flagI _) => rfl

/-- So does a list of them. -/
theorem readByte_transactAll_of_leavesAlone {ts : List Transaction} {s : State} {addr : Addr} (h : leavesAlone addr ts s = true) :
    (transactAll ts s).readByte addr = s.readByte addr := by
  induction ts generalizing s with
  | nil => rfl
  | cons tr rest ih =>
    rw [leavesAlone, Bool.and_eq_true, Bool.not_eq_true'] at h
    obtain ⟨hfirst, hrest⟩ := h
    exact (ih hrest).trans (readByte_transact_of_not_stores hfirst)

/-- Step on ASL in a memory mode leaves the byte at its effective address doubled. -/
theorem readByte_transact_step_of_asl {s : State} {i : Instr} {r : Resolved} (hInv : s.Inv) (hfetch : fetchInstr s = some i)
    (hi : i.mnemonic = .asl) (hr : resolve i s = some r) : (transact .step s).1.readByte r.ea = s.readByte r.ea <<< 1 := by
  rw [transact, stepReport_of_fetch hfetch (exec_aslMem hi hr), State.advance_readByte]
  exact aslMem_readByte_ea r hInv

/-- An instruction writes back one byte at most (20_memory.md R53). -/
theorem writeBack_cases (i : Instr) (s : State) : writeBack i s = [] ∨ ∃ access, writeBack i s = [access] := by
  unfold writeBack
  split
  · exact .inr ⟨_, rfl⟩
  · exact .inl rfl

/-- Before the last access of a step there are only reads (44_step.md R236). -/
theorem eq_read_of_mem_dropLast {s : State} {access : Access} (h : access ∈ (stepAccesses s).dropLast) : ∃ addr, access = .read addr := by
  cases hfetch : fetchInstr s with
  | none => simp [stepAccesses_of_no_fetch hfetch] at h
  | some i =>
    rw [stepAccesses_of_fetch hfetch, accessesOf_eq_reads_append] at h
    rcases writeBack_cases i s with hnone | ⟨last, hone⟩
    · rw [hnone, List.append_nil] at h
      exact eq_read_of_mem_readsOf (List.dropLast_subset _ h)
    · rw [hone, List.dropLast_concat] at h
      exact eq_read_of_mem_readsOf h

/-- Settles O54: the byte stored stays there through all transactions that do not store to its address, and a fetch reads it. -/
theorem fetchSeesEveryEarlierStore : Obligations.FetchSeesEveryEarlierStore := by
  unfold Obligations.FetchSeesEveryEarlierStore
  refine ⟨fun s addr v ts hInv hts => fetchGives_of_readByte ?hostStore, fun s i r ts hInv hfetch hi hr hts => fetchGives_of_readByte ?aslStore,
    fun s access h => eq_read_of_mem_dropLast h⟩
  case hostStore => exact (readByte_transactAll_of_leavesAlone hts).trans (State.readByte_writeByte_eq addr v hInv)
  case aslStore => exact (readByte_transactAll_of_leavesAlone hts).trans (readByte_transact_step_of_asl hInv hfetch hi hr)

end Sys2Proof.Machine

/-! PROOFS. The obligation on what a step depends on: the registers and the bytes its access list reads (00_scope.md R11, 44_step.md R234, R236). -/

namespace Sys2Proof.Machine

/-- Two states have the same byte wherever the instruction, run at the first one, reads (44_step.md R236). -/
def ReadsAlike (i : Instr) (s s' : State) : Prop :=
  ∀ addr : Addr, Access.read addr ∈ accessesOf i s → s.readByte addr = s'.readByte addr

/-! ## The same instruction is fetched -/

theorem fetchInstr_eq_some_iff {s : State} {i : Instr} :
    fetchInstr s = some i ↔
      ∃ mn md, dispatch (fetchOpcode s) = some (mn, md) ∧ assemble mn md (fetchB1 s) (fetchB2 s) = some i := by
  cases hd : dispatch (fetchOpcode s) with
  | none => simp [fetchInstr, decodeInstr_of_no_dispatch hd]
  | some form => simp [fetchInstr, decodeInstr_of_dispatch hd, Prod.ext_iff, and_assoc]

theorem read_pc_mem_accessesOf (i : Instr) (s : State) : .read s.pc ∈ accessesOf i s := List.mem_cons_self

theorem read_b1_mem_accessesOf {i : Instr} (s : State) (h : 1 ≤ i.mode.operandBytes) : .read (s.pc + 1#16) ∈ accessesOf i s := by
  unfold accessesOf operandFetches
  split
  · omega
  · simp
  · simp

theorem read_b2_mem_accessesOf {i : Instr} (s : State) (h : 2 ≤ i.mode.operandBytes) : .read (s.pc + 2#16) ∈ accessesOf i s := by
  unfold accessesOf operandFetches
  split
  · omega
  · omega
  · simp

/-- The bytes of the instruction are among the reads, so both states fetch it (30_encoding.md R85). -/
theorem ReadsAlike.fetchInstr_eq {s s' : State} {i : Instr} (hread : ReadsAlike i s s') (hpc : s.pc = s'.pc) (h : fetchInstr s = some i) :
    fetchInstr s' = some i := by
  obtain ⟨mn, md, hd, ha⟩ := fetchInstr_eq_some_iff.mp h
  obtain ⟨rfl, rfl, -⟩ := assemble_spec ha
  have hop : fetchOpcode s = fetchOpcode s' := by
    rw [fetchOpcode, fetchOpcode, ← hpc]
    exact hread _ (read_pc_mem_accessesOf i s)
  have hb1 : 1 ≤ i.mode.operandBytes → fetchB1 s = fetchB1 s' := fun hlen => by
    rw [fetchB1, fetchB1, ← hpc]
    exact hread _ (read_b1_mem_accessesOf s hlen)
  have hb2 : 2 ≤ i.mode.operandBytes → fetchB2 s = fetchB2 s' := fun hlen => by
    rw [fetchB2, fetchB2, ← hpc]
    exact hread _ (read_b2_mem_accessesOf s hlen)
  exact fetchInstr_eq_some_iff.mpr ⟨_, _, hop ▸ hd, (assemble_congr hb1 hb2).symm.trans ha⟩

/-! ## The same address, operand and accesses -/

/-- The resolver reads the index registers and the pointer (40_addressing.md R128). -/
theorem ReadsAlike.resolve_eq {i : Instr} {s s' : State} (hread : ReadsAlike i s s') (hx : s.x = s'.x) (hy : s.y = s'.y) :
    resolve i s = resolve i s' := by
  have hpointer : ∀ addr, Access.read addr ∈ pointerFetches i s → s.readByte addr = s'.readByte addr :=
    fun addr hmem => hread addr (by simp [accessesOf, hmem])
  cases i <;>
    simp_all [resolve, resolveZeroPageX, resolveAbsoluteX, resolveAbsoluteY, resolveIndirectX, resolveIndirectY, readPointer,
      pointerFetches, pointerReads]

/-- The byte at the effective address is among the reads (40_addressing.md R123). -/
theorem ReadsAlike.readByte_ea_eq {i : Instr} {s s' : State} {r : Resolved} (hread : ReadsAlike i s s') (hr : resolve i s = some r) :
    s.readByte r.ea = s'.readByte r.ea :=
  hread r.ea (by simp [accessesOf, operandRead, hr])

/-- The operand is A, an operand byte or the byte at the effective address. -/
theorem ReadsAlike.operand_eq {i : Instr} {s s' : State} (hread : ReadsAlike i s s') (ha : s.a = s'.a) (hx : s.x = s'.x) (hy : s.y = s'.y) :
    operand i s = operand i s' := by
  have hresolve := hread.resolve_eq hx hy
  cases hr : resolve i s with
  | some r => simp [operand, State.operandAt, ← hresolve, hr, hread.readByte_ea_eq hr]
  | none =>
    have hdirect : directOperand i s = directOperand i s' := by cases i <;> simp [directOperand, ha]
    simp [operand, ← hresolve, hr, hdirect]

/-- The write back is decided by the address and the byte there. -/
theorem ReadsAlike.writeBack_eq {i : Instr} {s s' : State} (hread : ReadsAlike i s s') (hx : s.x = s'.x) (hy : s.y = s'.y) :
    writeBack i s = writeBack i s' := by
  have hresolve := hread.resolve_eq hx hy
  by_cases hi : i.mnemonic = .asl
  · cases hr : resolve i s with
    | some r =>
      rw [writeBack_of_asl hi hr, writeBack_of_asl hi (hresolve.symm.trans hr), State.operandAt, State.operandAt,
        hread.readByte_ea_eq hr]
    | none => simp [writeBack, ← hresolve, hr]
  · rw [writeBack_of_not_asl hi, writeBack_of_not_asl hi]

theorem ReadsAlike.accessesOf_eq {i : Instr} {s s' : State} (hread : ReadsAlike i s s') (hx : s.x = s'.x) (hy : s.y = s'.y) (hpc : s.pc = s'.pc) :
    accessesOf i s = accessesOf i s' := by
  have hpointer : pointerFetches i s = pointerFetches i s' := by cases i <;> simp [pointerFetches, hx]
  have hfetches : operandFetches i.mode s = operandFetches i.mode s' := by simp [operandFetches, hpc]
  have hoperand : operandRead i s = operandRead i s' := by simp [operandRead, hread.resolve_eq hx hy]
  rw [accessesOf, accessesOf, hpc, hfetches, hpointer, hoperand, hread.writeBack_eq hx hy]

/-! ## The same registers and cycles -/

/-- States with the same registers and flags differ in memory only. -/
theorem exists_mem_of_sameRegisters {s s' : State} (h : SameRegisters s s') : ∃ m, s' = { s with mem := m } := by
  obtain ⟨ha, hx, hy, hpc, hN, hV, hD, hZ, hC, hI⟩ := h
  exact ⟨s'.mem, State.ext_fields ha.symm hx.symm hy.symm hpc.symm hN.symm hV.symm hD.symm hZ.symm hC.symm hI.symm rfl⟩

/-- A branch reads flags and no memory (43_branches.md R206). -/
theorem branchOf_with_mem (i : Instr) (s : State) (m : Memory) : branchOf i { s with mem := m } = branchOf i s := by
  cases i <;> rfl

/-- An instruction that reads the same bytes leaves the same registers and flags. -/
theorem exec_sameRegisters {i : Instr} {s s' t t' : State} (h : SameRegisters s s') (hread : ReadsAlike i s s')
    (ht : exec i s = .next t) (ht' : exec i s' = .next t') : SameRegisters t t' := by
  obtain ⟨m', rfl⟩ := exists_mem_of_sameRegisters h
  have hoperand := hread.operand_eq rfl rfl rfl
  have hresolve := hread.resolve_eq rfl rfl
  rcases exec_next_cases ht with ⟨m, hi, hm, rfl⟩ | ⟨m, hi, hm, rfl⟩ | ⟨m, hi, hm, rfl⟩ | ⟨r, hi, hr, rfl⟩ | ⟨rfl, rfl⟩ | ⟨c, rel, hb, rfl⟩
  · rw [exec_adc hi (hoperand ▸ hm)] at ht'
    cases ht'; simp [SameRegisters]
  · rw [exec_and hi (hoperand ▸ hm)] at ht'
    cases ht'; simp [SameRegisters]
  · rw [exec_bit hi (hoperand ▸ hm)] at ht'
    cases ht'; simp [SameRegisters]
  · rw [exec_aslMem hi (hresolve ▸ hr)] at ht'
    cases ht'; simp [SameRegisters, State.operandAt, hread.readByte_ea_eq hr]
  · rw [exec_aslAcc] at ht'
    cases ht'; simp [SameRegisters]
  · rw [exec_branch ((branchOf_with_mem i s m').trans hb)] at ht'
    cases ht'; simp [SameRegisters, branchTarget, branchNext]

/-- Nor does the cycle count tell such states apart: of memory only the page cross depends on it (44_step.md R241). -/
theorem cyclesOf_congr {i : Instr} {s s' : State} (h : SameRegisters s s') (hread : ReadsAlike i s s') :
    cyclesOf i s = cyclesOf i s' := by
  obtain ⟨m', rfl⟩ := exists_mem_of_sameRegisters h
  have hcross : pageCrossOf i s = pageCrossOf i { s with mem := m' } := by
    rw [pageCrossOf, pageCrossOf, hread.resolve_eq rfl rfl]
  simp only [cyclesOf, branchOf_with_mem i s m', hcross]
  rfl

/-! ## The same bytes afterwards -/

/-- The same writes leave two canonical memories alike wherever they were. -/
theorem applyWrites_read_congr {l : List Access} {m m' : Memory} (hwf : m.wf = true) (hwf' : m'.wf = true) {addr : Addr}
    (h : m.read addr = m'.read addr) : (applyWrites l m).read addr = (applyWrites l m').read addr := by
  induction l generalizing m m' with
  | nil => exact h
  | cons access rest ih =>
    cases access with
    | read k => exact ih hwf hwf' h
    | write k v =>
      refine ih (Memory.write_wf k v hwf) (Memory.write_wf k v hwf') ?_
      by_cases heq : addr = k
      · subst heq
        rw [Memory.read_write_eq addr v hwf, Memory.read_write_eq addr v hwf']
      · rw [Memory.read_write_ne m v heq, Memory.read_write_ne m' v heq, h]

/-! ## The step -/

/-- The two steps make the same accesses, return the same output and leave the same registers and flags. -/
def StepsAlike (s s' : State) : Prop :=
  stepAccesses s' = stepAccesses s ∧ (stepReport s').output = (stepReport s).output ∧
    SameRegisters (stepReport s).state (stepReport s').state

/-- The opcode byte is read in every step (44_step.md R236). -/
theorem read_pc_mem_stepAccesses (s : State) : .read s.pc ∈ stepAccesses s := by
  cases hfetch : fetchInstr s with
  | none => rw [stepAccesses_of_no_fetch hfetch]; exact List.mem_cons_self
  | some i => rw [stepAccesses_of_fetch hfetch]; exact read_pc_mem_accessesOf i s

/-- Both steps raise the exception on the same byte and change nothing. -/
theorem stepsAlike_of_no_fetch {s s' : State} (hregs : SameRegisters s s') (hfetch : fetchInstr s = none)
    (hop : fetchOpcode s = fetchOpcode s') : StepsAlike s s' := by
  have ⟨_, _, _, hpc, _⟩ := hregs
  have hfetch' : fetchInstr s' = none := fetchInstr_eq_none_iff.mpr (hop ▸ fetchInstr_eq_none_iff.mp hfetch)
  rw [StepsAlike, stepReport_of_no_fetch hfetch, stepReport_of_no_fetch hfetch', stepAccesses_of_no_fetch hfetch,
    stepAccesses_of_no_fetch hfetch', hpc, hop]
  exact ⟨rfl, rfl, hregs⟩

/-- Both steps run the instruction at PC, which reads the same bytes. -/
theorem stepsAlike_of_fetch {s s' : State} {i : Instr} (hregs : SameRegisters s s') (hfetch : fetchInstr s = some i)
    (hread : ReadsAlike i s s') : StepsAlike s s' := by
  have ⟨_, hx, hy, hpc, _⟩ := hregs
  have hfetch' := hread.fetchInstr_eq hpc hfetch
  obtain ⟨t, ht⟩ := exec_completes i s
  obtain ⟨t', ht'⟩ := exec_completes i s'
  rw [StepsAlike, stepReport_of_fetch hfetch ht, stepReport_of_fetch hfetch' ht', stepAccesses_of_fetch hfetch,
    stepAccesses_of_fetch hfetch', hread.accessesOf_eq hx hy hpc, cyclesOf_congr hregs hread]
  exact ⟨rfl, rfl, exec_sameRegisters hregs hread ht ht'⟩

/-- A step that reads the same bytes goes the same way, executed or not. -/
theorem stepsAlike_of_reads {s s' : State} (hregs : SameRegisters s s')
    (hread : ∀ addr : Addr, Access.read addr ∈ stepAccesses s → s.readByte addr = s'.readByte addr) : StepsAlike s s' := by
  have ⟨_, _, _, hpc, _⟩ := hregs
  cases hfetch : fetchInstr s with
  | none =>
    refine stepsAlike_of_no_fetch hregs hfetch ?_
    rw [fetchOpcode, fetchOpcode, ← hpc]
    exact hread _ (read_pc_mem_stepAccesses s)
  | some i =>
    rw [stepAccesses_of_fetch hfetch] at hread
    exact stepsAlike_of_fetch hregs hfetch hread

/-- Settles O51: two such steps go the same way, and what they do to memory is the writes of one access list. -/
theorem stepDependsOnlyOnTheBytesItReads : Obligations.StepDependsOnlyOnTheBytesItReads := by
  unfold Obligations.StepDependsOnlyOnTheBytesItReads
  intro s s' hInv hInv' hregs hread
  obtain ⟨haccesses, houtput, hregs'⟩ := stepsAlike_of_reads hregs hread
  refine ⟨haccesses, houtput, hregs', fun addr haddr => ?bytes⟩
  case bytes =>
    rw [State.readByte, State.readByte, stepReport_mem, stepReport_mem, haccesses]
    exact applyWrites_read_congr hInv hInv' haddr

end Sys2Proof.Machine

/-! PROOFS. The obligations of 10_state.md and 70_reset_and_hazards.md on what instructions keep and read: the flag effects of each instruction (10_state.md R37), and the registers and flags that no run changes (70_reset_and_hazards.md R296). -/

namespace Sys2Proof.Machine

/-! ## What no instruction writes -/

/-- Settles O44: no instruction writes X, Y, D or I, and the equations carry over from step to step. -/
theorem xyDecimalAndPlaceholderNeverChangeInARun : Obligations.XYDecimalAndPlaceholderNeverChangeInARun := by
  unfold Obligations.XYDecimalAndPlaceholderNeverChangeInARun
  intro n s t hrun
  refine run_induction (P := fun s t => t.x = s.x ∧ t.y = s.y ∧ t.flagD = s.flagD ∧ t.flagI = s.flagI)
    (fun _ => ⟨rfl, rfl, rfl, rfl⟩) (fun s u t hstep hrest => ?step) hrun
  case step =>
    obtain ⟨i, -, hexec⟩ := step_next_iff.mp hstep
    obtain ⟨hx, hy, hD, hI⟩ := exec_keeps_index_decimal_placeholder hexec
    obtain ⟨hx', hy', hD', hI'⟩ := hrest
    exact ⟨hx'.trans hx, hy'.trans hy, hD'.trans hD, hI'.trans hI⟩

/-! ## The flags an instruction keeps -/

/-- AND and ASL keep V (10_state.md R37). -/
theorem exec_keeps_flagV {i : Instr} {s t : State} (h : exec i s = .next t) (hi : i.mnemonic = .and ∨ i.mnemonic = .asl) :
    t.flagV = s.flagV := by
  rcases exec_next_cases h with ⟨m, hadc, -, rfl⟩ | ⟨m, -, -, rfl⟩ | ⟨m, hbit, -, rfl⟩ | ⟨r, -, -, rfl⟩ | ⟨-, rfl⟩ | ⟨c, rel, -, rfl⟩
  · simp [hadc] at hi
  · simp
  · simp [hbit] at hi
  · simp
  · simp
  · simp

/-- AND and BIT keep C (10_state.md R37). -/
theorem exec_keeps_flagC {i : Instr} {s t : State} (h : exec i s = .next t) (hi : i.mnemonic = .and ∨ i.mnemonic = .bit) :
    t.flagC = s.flagC := by
  rcases exec_next_cases h with ⟨m, hadc, -, rfl⟩ | ⟨m, -, -, rfl⟩ | ⟨m, -, -, rfl⟩ | ⟨r, hasl, -, rfl⟩ | ⟨rfl, -⟩ | ⟨c, rel, -, rfl⟩
  · simp [hadc] at hi
  · simp
  · simp
  · simp [hasl] at hi
  · simp [Instr.mnemonic] at hi
  · simp

/-- The branches keep all four flags that instructions write. -/
theorem exec_keeps_flags_of_relative {i : Instr} {s t : State} (h : exec i s = .next t) (hi : i.mode = .relative) :
    t.flagN = s.flagN ∧ t.flagV = s.flagV ∧ t.flagZ = s.flagZ ∧ t.flagC = s.flagC := by
  obtain ⟨c, rel, hb⟩ := branchOf_of_relative hi s
  rw [exec_branch hb] at h
  cases h; simp

/-! ## The flags an instruction reads -/

/-- Every form of BIT and ASL has an operand byte (42_and_asl_bit.md R183 to R191). -/
theorem operand_of_bit_or_asl {i : Instr} (hi : i.mnemonic = .bit ∨ i.mnemonic = .asl) (s : State) : ∃ m, operand i s = some m := by
  cases i <;> simp [Instr.mnemonic, operand, resolve, directOperand] at hi ⊢

/-- ASL is the accumulator form or has an effective address (42_and_asl_bit.md R180). -/
theorem eq_aslAcc_or_resolve {i : Instr} (hi : i.mnemonic = .asl) (s : State) : i = .aslAcc ∨ ∃ r, resolve i s = some r := by
  cases i <;> simp [Instr.mnemonic, resolve] at hi ⊢

/-- ASL takes its three flags from its operand byte, in A or in memory (42_and_asl_bit.md R181, R182). -/
theorem exec_asl_flags {i : Instr} {s t : State} {m : Byte} (h : exec i s = .next t) (hi : i.mnemonic = .asl)
    (hm : operand i s = some m) :
    t.flagN = negativeOf (shiftLeft m).result ∧ t.flagZ = zeroOf (shiftLeft m).result ∧ t.flagC = (shiftLeft m).carry := by
  rcases eq_aslAcc_or_resolve hi s with rfl | ⟨r, hr⟩
  · rw [exec_aslAcc] at h
    cases h; cases hm; simp
  · rw [exec_aslMem hi hr] at h
    have hbyte : s.operandAt r = m := by simpa [operand, hr] using hm
    cases h; simp [hbyte]

section SameButFlags

/-! Two states alike but for their flags, and what one instruction leaves of each. -/

variable {i : Instr} {s s' t t' : State} (ht : exec i s = .next t) (ht' : exec i s' = .next t')
include ht ht'

/-- ADC reads C and D and no other flag. -/
theorem exec_adc_flags_congr (hi : i.mnemonic = .adc) (hoperand : operand i s = operand i s') (ha : s.a = s'.a)
    (hC : s.flagC = s'.flagC) (hD : s.flagD = s'.flagD) :
    t.flagN = t'.flagN ∧ t.flagV = t'.flagV ∧ t.flagZ = t'.flagZ ∧ t.flagC = t'.flagC := by
  obtain ⟨m, hm⟩ := operand_of_adc_or_and (.inl hi) s
  rw [exec_adc hi hm] at ht
  rw [exec_adc hi (hoperand ▸ hm)] at ht'
  cases ht; cases ht'; simp [ha, hC, hD]

/-- AND reads no flag. -/
theorem exec_and_flags_congr (hi : i.mnemonic = .and) (hoperand : operand i s = operand i s') (ha : s.a = s'.a) :
    t.flagN = t'.flagN ∧ t.flagZ = t'.flagZ := by
  obtain ⟨m, hm⟩ := operand_of_adc_or_and (.inr hi) s
  rw [exec_and hi hm] at ht
  rw [exec_and hi (hoperand ▸ hm)] at ht'
  cases ht; cases ht'; simp [ha]

/-- ASL reads no flag. -/
theorem exec_asl_flags_congr (hi : i.mnemonic = .asl) (hoperand : operand i s = operand i s') :
    t.flagN = t'.flagN ∧ t.flagZ = t'.flagZ ∧ t.flagC = t'.flagC := by
  obtain ⟨m, hm⟩ := operand_of_bit_or_asl (.inr hi) s
  obtain ⟨hN, hZ, hC⟩ := exec_asl_flags ht hi hm
  obtain ⟨hN', hZ', hC'⟩ := exec_asl_flags ht' hi (hoperand ▸ hm)
  exact ⟨hN.trans hN'.symm, hZ.trans hZ'.symm, hC.trans hC'.symm⟩

/-- BIT reads no flag. -/
theorem exec_bit_flags_congr (hi : i.mnemonic = .bit) (hoperand : operand i s = operand i s') (ha : s.a = s'.a) :
    t.flagN = t'.flagN ∧ t.flagV = t'.flagV ∧ t.flagZ = t'.flagZ := by
  obtain ⟨m, hm⟩ := operand_of_bit_or_asl (.inl hi) s
  rw [exec_bit hi hm] at ht
  rw [exec_bit hi (hoperand ▸ hm)] at ht'
  cases ht; cases ht'; simp [ha]

/-- Where a branch goes is decided by PC and by its condition. -/
theorem exec_branch_pc_congr (hi : i.mode = .relative) (hbranch : branchOf i s = branchOf i s') (hpc : s.pc = s'.pc) : t.pc = t'.pc := by
  obtain ⟨c, rel, hb⟩ := branchOf_of_relative hi s
  rw [exec_branch hb] at ht
  rw [exec_branch (hbranch ▸ hb)] at ht'
  cases ht; cases ht'; simp [branchTarget, branchNext, hpc]

end SameButFlags

/-- BCC and BCS test C only (43_branches.md R206). -/
theorem branchOf_carry {i : Instr} (hi : i.mnemonic = .bcc ∨ i.mnemonic = .bcs) :
    i.mode = .relative ∧ ∀ s s' : State, s.flagC = s'.flagC → branchOf i s = branchOf i s' := by
  cases i <;> simp [Instr.mnemonic] at hi <;> simp +contextual [Instr.mode, branchOf, condBcc, condBcs]

/-- BEQ and BNE test Z only (43_branches.md R206). -/
theorem branchOf_zero {i : Instr} (hi : i.mnemonic = .beq ∨ i.mnemonic = .bne) :
    i.mode = .relative ∧ ∀ s s' : State, s.flagZ = s'.flagZ → branchOf i s = branchOf i s' := by
  cases i <;> simp [Instr.mnemonic] at hi <;> simp +contextual [Instr.mode, branchOf, condBeq, condBne]

/-- BMI and BPL test N only (43_branches.md R206). -/
theorem branchOf_negative {i : Instr} (hi : i.mnemonic = .bmi ∨ i.mnemonic = .bpl) :
    i.mode = .relative ∧ ∀ s s' : State, s.flagN = s'.flagN → branchOf i s = branchOf i s' := by
  cases i <;> simp [Instr.mnemonic] at hi <;> simp +contextual [Instr.mode, branchOf, condBmi, condBpl]

/-- The same memory reads alike, whatever the instruction. -/
theorem readsAlike_of_mem_eq (i : Instr) {s s' : State} (h : s.mem = s'.mem) : ReadsAlike i s s' :=
  fun addr _ => by rw [State.readByte, State.readByte, h]

/-- Settles O42: what is kept is read off the next state of each kind of instruction; two states alike but for flags give one operand and one address; and a faulting step leaves the state as it was. -/
theorem flagEffectsOfEveryInstruction : Obligations.FlagEffectsOfEveryInstruction := by
  unfold Obligations.FlagEffectsOfEveryInstruction
  refine ⟨fun i s t h => ?kept, fun i s s' t t' ht ht' ha hx hy hpc hmem => ?read, fun s f h => ?fault⟩
  case kept =>
    obtain ⟨-, -, hD, hI⟩ := exec_keeps_index_decimal_placeholder h
    exact ⟨hD, hI, exec_keeps_flagV h, exec_keeps_flagC h, exec_keeps_flags_of_relative h⟩
  case read =>
    have hread := readsAlike_of_mem_eq i hmem
    have hoperand := hread.operand_eq ha hx hy
    refine ⟨fun hi hC hD => exec_adc_flags_congr ht ht' hi hoperand ha hC hD, fun hi => exec_and_flags_congr ht ht' hi hoperand ha,
      fun hi => exec_asl_flags_congr ht ht' hi hoperand, fun hi => exec_bit_flags_congr ht ht' hi hoperand ha,
      fun hi hC => ?carry, fun hi hZ => ?zero, fun hi hN => ?negative⟩
    case carry =>
      obtain ⟨hmode, hbranch⟩ := branchOf_carry hi
      exact exec_branch_pc_congr ht ht' hmode (hbranch s s' hC) hpc
    case zero =>
      obtain ⟨hmode, hbranch⟩ := branchOf_zero hi
      exact exec_branch_pc_congr ht ht' hmode (hbranch s s' hZ) hpc
    case negative =>
      obtain ⟨hmode, hbranch⟩ := branchOf_negative hi
      exact exec_branch_pc_congr ht ht' hmode (hbranch s s' hN) hpc
  case fault =>
    rcases step_cases s with ⟨-, -, hreport⟩ | ⟨i, t, -, -, hnext, -⟩
    · simp [hreport, SameRegisters]
    · rw [hnext] at h
      cases h

end Sys2Proof.Machine

/-! PROOFS. The obligations on the cycle count: its range (44_step.md R244), the table of the forms that do not branch (R241, R242), and what it depends on (70_reset_and_hazards.md R300). -/

namespace Sys2Proof.Machine

/-! ## The range -/

/-- Every base count leaves room for one bonus cycle, and only a form below the highest takes it (44_step.md R241, R242). -/
theorem baseCycles_bounds (i : Instr) : 2 ≤ baseCycles i ∧ baseCycles i + (if takesPageCrossBonus i then 1 else 0) ≤ 7 := by
  cases i <;> simp [baseCycles, takesPageCrossBonus, Instr.mnemonic, Instr.mode]

theorem branchCycles_bounds (c : Bool) (rel : Byte) (s : State) : 2 ≤ branchCycles c rel s ∧ branchCycles c rel s ≤ 4 := by
  cases c <;> cases hcross : branchCross rel s <;> simp [branchCycles, hcross]

theorem cyclesOf_bounds (i : Instr) (s : State) : 2 ≤ cyclesOf i s ∧ cyclesOf i s ≤ 7 := by
  cases hb : branchOf i s with
  | some branch =>
    have := branchCycles_bounds branch.1 branch.2 s
    rw [cyclesOf_branch hb]
    omega
  | none =>
    have := baseCycles_bounds i
    simp only [cyclesOf, hb]
    cases hbonus : takesPageCrossBonus i <;> cases hcross : pageCrossOf i s <;> simp_all <;> omega

/-- Settles O45: a count is reported when an instruction is fetched, and then it is that of the instruction. -/
theorem cyclesLieBetweenTwoAndSeven : Obligations.CyclesLieBetweenTwoAndSeven := by
  unfold Obligations.CyclesLieBetweenTwoAndSeven
  intro s
  refine ⟨fun n hn => ?range, stepCycles_eq_none_iff.trans (not_supported_iff s).symm⟩
  case range =>
    obtain ⟨i, -, rfl⟩ := Option.map_eq_some_iff.mp hn
    exact cyclesOf_bounds i s

/-! ## The table -/

/-- The page cross of an indexed address, as the bonus it earns (40_addressing.md R116, R117). -/
theorem indexed_bonus (base : Addr) (index : Byte) :
    (if (indexed base index).pageCross then 1 else 0) = if base.toNat % 256 + index.toNat > 255 then 1 else 0 := by
  obtain ⟨-, hcross, -⟩ := indexed_spec base index
  simp only [hcross]

/-- A pointer's low byte is the one stored first (20_memory.md R55). -/
theorem readPointer_low (p : Byte) (s : State) : (readPointer p s).toNat % 256 = (s.readByte (zext16 p)).toNat := by
  rw [← loByte_toNat, readPointer, loByte_pair]

/-- Settles O46: a row without a bonus is the base count of its forms, and the other rows add the bonus of their indexed address, for (Zero Page),Y at the pointer. -/
theorem cycleTableOfTheNonBranchForms : Obligations.CycleTableOfTheNonBranchForms := by
  unfold Obligations.CycleTableOfTheNonBranchForms
  intro s v addr crossX crossY crossInd
  have hX := congrArg (4 + ·) (indexed_bonus addr s.x)
  have hY := congrArg (4 + ·) (indexed_bonus addr s.y)
  have hInd := congrArg (5 + ·) (indexed_bonus (readPointer v s) s.y)
  rw [readPointer_low] at hInd
  simp only [List.forall_mem_cons, List.not_mem_nil, false_imp_iff, implies_true, and_true]
  exact ⟨⟨rfl, rfl, rfl⟩, ⟨rfl, rfl, rfl⟩, ⟨rfl, rfl, rfl, rfl, rfl⟩, ⟨hX, hX⟩, ⟨hY, hY⟩, ⟨rfl, rfl⟩, ⟨hInd, hInd⟩, rfl, rfl, rfl, rfl⟩

/-! ## What the count depends on -/

/-- The opcode byte decides the form (30_encoding.md R85). -/
theorem form_eq_of_opcodeOf_eq {i j : Instr} (h : opcodeOf i = opcodeOf j) : i.mnemonic = j.mnemonic ∧ i.mode = j.mode := by
  have hform := dispatch_opcodeOf i
  rw [h, dispatch_opcodeOf j] at hform
  simpa [eq_comm] using hform

/-- It decides the base count too: instructions of one form differ in their operand bytes only. -/
theorem baseCycles_eq_of_opcodeOf_eq {i j : Instr} (h : opcodeOf i = opcodeOf j) : baseCycles i = baseCycles j := by
  obtain ⟨hmn, hmd⟩ := form_eq_of_opcodeOf_eq h
  obtain ⟨b1, b2, hj⟩ : ∃ b1 b2, assemble j.mnemonic j.mode b1 b2 = some j := ⟨_, _, assemble_operandsOf j []⟩
  rw [← hmn, ← hmd] at hj
  cases i <;> obtain rfl := Option.some.inj hj <;> rfl

/-- The forms that take the bonus are forms of ADC and AND in three modes (44_step.md R241). -/
theorem form_of_takesPageCrossBonus {i : Instr} (h : takesPageCrossBonus i = true) :
    i.mnemonic ≠ .asl ∧ i.mode ∈ [Mode.absoluteX, .absoluteY, .zeroPageIndirectY] := by
  cases i <;> simp [takesPageCrossBonus, Instr.mnemonic, Instr.mode] at h ⊢

/-- Two forms that do not branch cost the same when their base counts and their bonuses are the same. -/
theorem cyclesOf_eq_of_cross_eq {i j : Instr} {s t : State} (hi : i.mode ≠ .relative) (hj : j.mode ≠ .relative)
    (hbase : baseCycles i = baseCycles j) (hbonus : takesPageCrossBonus i = takesPageCrossBonus j)
    (hcross : takesPageCrossBonus i = true → pageCrossOf i s = pageCrossOf j t) : cyclesOf i s = cyclesOf j t := by
  rw [cyclesOf_of_not_relative hi, cyclesOf_of_not_relative hj, hbase, ← hbonus]
  cases htakes : takesPageCrossBonus i with
  | true => rw [hcross htakes]
  | false => rfl

/-- Two branches of the same way cost the same when both targets or neither are on the page of the next sequential instruction (43_branches.md R203, R204). -/
theorem branchCycles_eq_of_page_iff {taken : Bool} {rel rel' : Byte} {s t : State}
    (hpage : taken = true → ((branchTarget rel s).toNat / 256 = (branchNext s).toNat / 256 ↔
      (branchTarget rel' t).toNat / 256 = (branchNext t).toNat / 256)) :
    branchCycles taken rel s = branchCycles taken rel' t := by
  cases taken with
  | true => simp only [branchCycles_taken, hpage rfl]
  | false => rfl

/-- A branch tests N, Z or C (43_branches.md R206). -/
theorem branchOf_eq_of_flags_eq (i : Instr) {s t : State} (hN : s.flagN = t.flagN) (hZ : s.flagZ = t.flagZ) (hC : s.flagC = t.flagC) :
    branchOf i s = branchOf i t := by
  cases i <;> simp [branchOf, condBpl, condBmi, condBcc, condBcs, condBne, condBeq, hN, hZ, hC]

/-- The page cross of an indexed address depends on the low byte of its base and on the index. -/
theorem indexed_pageCross_eq {base base' : Addr} {index index' : Byte} (hbase : base.toNat % 256 = base'.toNat % 256)
    (hindex : index = index') : (indexed base index).pageCross = (indexed base' index').pageCross := by
  simp [indexed, loByte_toNat, hbase, hindex]

/-- Of the state only the index can matter to the bonus, and for (Zero Page),Y the pointer's low byte. -/
theorem pageCrossOf_eq_of_bonus {i : Instr} {s t : State} (hbonus : takesPageCrossBonus i = true)
    (hx : i.mode = .absoluteX → s.x = t.x) (hy : i.mode = .absoluteY ∨ i.mode = .zeroPageIndirectY → s.y = t.y)
    (hlow : ∀ zp, i = .adcIndY zp ∨ i = .andIndY zp → s.readByte (zext16 zp) = t.readByte (zext16 zp)) :
    pageCrossOf i s = pageCrossOf i t := by
  have hpointer (zp : Byte) (hi : i = .adcIndY zp ∨ i = .andIndY zp) :
      (readPointer zp s).toNat % 256 = (readPointer zp t).toNat % 256 := by
    rw [readPointer_low, readPointer_low, hlow zp hi]
  cases i with
  | adcAbsX addr => exact indexed_pageCross_eq rfl (hx rfl)
  | andAbsX addr => exact indexed_pageCross_eq rfl (hx rfl)
  | adcAbsY addr => exact indexed_pageCross_eq rfl (hy (.inl rfl))
  | andAbsY addr => exact indexed_pageCross_eq rfl (hy (.inl rfl))
  | adcIndY zp => exact indexed_pageCross_eq (hpointer zp (.inl rfl)) (hy (.inr rfl))
  | andIndY zp => exact indexed_pageCross_eq (hpointer zp (.inr rfl)) (hy (.inr rfl))
  | _ => cases hbonus

/-- Settles O47: a form that does not branch has the base count of its opcode byte and its bonus; a branch has the count of its way and its target's page; and the parts of the state named decide the bonus and the branch. -/
theorem cyclesDoNotDependOnData : Obligations.CyclesDoNotDependOnData := by
  unfold Obligations.CyclesDoNotDependOnData
  refine ⟨fun i j s t hi hop hcross => ?sameOpcode, fun i j s t taken rel rel' hb hb' hpage => ?sameWay,
    fun i s t hx hy hlow hrel => ?sameState⟩
  case sameOpcode =>
    obtain ⟨hmn, hmd⟩ := form_eq_of_opcodeOf_eq hop
    refine cyclesOf_eq_of_cross_eq hi (hmd ▸ hi) (baseCycles_eq_of_opcodeOf_eq hop) ?_ fun hbonus => ?_
    · rw [takesPageCrossBonus, takesPageCrossBonus, hmn, hmd]
    · obtain ⟨hasl, hmode⟩ := form_of_takesPageCrossBonus hbonus
      exact hcross hasl hmode
  case sameWay =>
    rw [cyclesOf_branch hb, cyclesOf_branch hb']
    exact branchCycles_eq_of_page_iff hpage
  case sameState =>
    by_cases hi : i.mode = .relative
    · obtain ⟨hpc, hN, hZ, hC⟩ := hrel hi
      obtain ⟨c, rel, hb⟩ := branchOf_of_relative hi s
      have hb' := (branchOf_eq_of_flags_eq i hN hZ hC).symm.trans hb
      rw [cyclesOf_branch hb, cyclesOf_branch hb']
      exact branchCycles_eq_of_page_iff fun _ => by rw [branchTarget, branchTarget, branchNext, branchNext, hpc]
    · refine cyclesOf_eq_of_cross_eq hi hi rfl rfl fun hbonus => ?_
      obtain ⟨hasl, -⟩ := form_of_takesPageCrossBonus hbonus
      exact pageCrossOf_eq_of_bonus hbonus (hx hasl) hy hlow

end Sys2Proof.Machine

/-! PROOFS. The obligations on the host: each of its writes sets one target (00_scope.md R15, 70_reset_and_hazards.md R293), and Reset forgets what came before (70_reset_and_hazards.md R290, R292). -/

namespace Sys2Proof.Machine

/-- Settles O52: a write of a register or flag is one update of that field, and a write of a memory byte is `writeByte`. -/
theorem hostWriteChangesOnlyItsTarget : Obligations.HostWriteChangesOnlyItsTarget := by
  unfold Obligations.HostWriteChangesOnlyItsTarget
  intro s v addr b hInv
  exact ⟨rfl, rfl, rfl, rfl, rfl, rfl, rfl, rfl, rfl, rfl, sameRegisters_writeByte s addr v, State.readByte_writeByte_eq addr v hInv,
    fun _ hother => State.readByte_writeByte_ne s v hother⟩

/-- Transactions in two lists run one list after the other. -/
theorem transactAll_append (ts ts' : List Transaction) (s : State) :
    transactAll (ts ++ ts') s = transactAll ts' (transactAll ts s) := by
  induction ts generalizing s with
  | nil => rfl
  | cons tr rest ih => exact ih _

/-- Settles O53: the last transaction of the list is Reset, which gives the reset state from every state. -/
theorem resetForgetsEverythingBefore : Obligations.ResetForgetsEverythingBefore := by
  unfold Obligations.ResetForgetsEverythingBefore
  exact fun ts s => ⟨transactAll_append ts [.reset] s, rfl⟩

end Sys2Proof.Machine
